-- ==== Sys2Proof/Word.lean ====
section
/-! DEFINITION. The word types of the core: 00_scope.md R10, 10_state.md R20, R24, R25, 30_encoding.md R91. -/

namespace Sys2Proof

/-- A byte: a memory cell, a timer, the immediate `nn` (R28, R60, R91). -/
abbrev Byte := BitVec 8

/-- 16 bits: an instruction word (R90). The register widths are parameters (Config.lean). -/
abbrev Word := BitVec 16

/-- A 4-bit register field `x` or `y`: every value names one V register, so no index is out of range
(R21, R91). -/
abbrev RegIdx := BitVec 4

/-- The 12-bit field `nnn`: an absolute address or an exit value (R91, R92). -/
abbrev Addr12 := BitVec 12

/-- The index of `VF` (R22). -/
abbrev regF : RegIdx := 0xF#4

end Sys2Proof
end

