-- ==== Sys2Proof/Syntax.lean ====
section
/-! DEFINITION. The 35 instructions, one constructor per row of spec/opcode_table.json (30_encoding.md R100). -/

namespace Sys2Proof

/-- An instruction with its operand fields (R91). -/
inductive Instr where
  /-- `00E0` CLS (R210). -/
  | cls
  /-- `00EE` RET (R131). -/
  | ret
  /-- `0nnn` EXIT nnn, `nnn` neither 0x0E0 nor 0x0EE (R132). -/
  | exit (nnn : Addr12)
  /-- `1nnn` JP nnn (R133). -/
  | jp (nnn : Addr12)
  /-- `2nnn` CALL nnn (R134). -/
  | call (nnn : Addr12)
  /-- `3xnn` SE Vx, nn (R135). -/
  | seImm (x : RegIdx) (nn : Byte)
  /-- `4xnn` SNE Vx, nn (R136). -/
  | sneImm (x : RegIdx) (nn : Byte)
  /-- `5xy0` SE Vx, Vy (R137). -/
  | seReg (x y : RegIdx)
  /-- `6xnn` LD Vx, nn (R162). -/
  | ldImm (x : RegIdx) (nn : Byte)
  /-- `7xnn` ADD Vx, nn (R163). -/
  | addImm (x : RegIdx) (nn : Byte)
  /-- `8xy0` LD Vx, Vy (R164). -/
  | ldReg (x y : RegIdx)
  /-- `8xy1` OR Vx, Vy (R165). -/
  | or (x y : RegIdx)
  /-- `8xy2` AND Vx, Vy (R166). -/
  | and (x y : RegIdx)
  /-- `8xy3` XOR Vx, Vy (R167). -/
  | xor (x y : RegIdx)
  /-- `8xy4` ADD Vx, Vy (R170). -/
  | addReg (x y : RegIdx)
  /-- `8xy5` SUB Vx, Vy (R171). -/
  | sub (x y : RegIdx)
  /-- `8xy6` SHR Vx (R172). The ignored field `y` (R103) stays in the syntax: it is part of the word a fault reports
  (R250, log 9). -/
  | shr (x y : RegIdx)
  /-- `8xy7` SUBN Vx, Vy (R173). -/
  | subn (x y : RegIdx)
  /-- `8xyE` SHL Vx (R174); `y` as in `shr`. -/
  | shl (x y : RegIdx)
  /-- `9xy0` SNE Vx, Vy (R138). -/
  | sneReg (x y : RegIdx)
  /-- `Annn` LD I, nnn (R190). -/
  | ldI (nnn : Addr12)
  /-- `Bnnn` JP V0, nnn (R139). -/
  | jpV0 (nnn : Addr12)
  /-- `Cxnn` RND Vx, nn (R175). -/
  | rnd (x : RegIdx) (nn : Byte)
  /-- `Dxyn` DRW Vx, Vy, n (R211). -/
  | drw (x y : RegIdx) (n : BitVec 4)
  /-- `Ex9E` SKP Vx (R233). -/
  | skp (x : RegIdx)
  /-- `ExA1` SKNP Vx (R234). -/
  | sknp (x : RegIdx)
  /-- `Fx07` LD Vx, DT (R230). -/
  | ldVxDt (x : RegIdx)
  /-- `Fx0A` LD Vx, K (R235). -/
  | ldVxK (x : RegIdx)
  /-- `Fx15` LD DT, Vx (R231). -/
  | ldDtVx (x : RegIdx)
  /-- `Fx18` LD ST, Vx (R232). -/
  | ldStVx (x : RegIdx)
  /-- `Fx1E` ADD I, Vx (R191). -/
  | addI (x : RegIdx)
  /-- `Fx29` LD F, Vx (R192). -/
  | ldF (x : RegIdx)
  /-- `Fx33` LD B, Vx (R193). -/
  | ldB (x : RegIdx)
  /-- `Fx55` LD [I], Vx (R194). -/
  | stRegs (x : RegIdx)
  /-- `Fx65` LD Vx, [I] (R195). -/
  | ldRegs (x : RegIdx)
  deriving DecidableEq, Repr

end Sys2Proof
end

