-- ==== Sys2Proof/Decode.lean ====
section
/-! DEFINITION. Decoding of words and of bytes, and the encoder: 30_encoding.md R90 to R103, 20_memory.md R65. -/

namespace Sys2Proof

/-! ### The fields of a word (R91) -/

/-- `a = w[15:12]`, the major opcode. -/
def fieldA (w : Word) : BitVec 4 := w.extractLsb' 12 4
/-- `x = w[11:8]`. -/
def fieldX (w : Word) : RegIdx := w.extractLsb' 8 4
/-- `y = w[7:4]`. -/
def fieldY (w : Word) : RegIdx := w.extractLsb' 4 4
/-- `n = w[3:0]`. -/
def fieldN (w : Word) : BitVec 4 := w.extractLsb' 0 4
/-- `nn = w[7:0]`. -/
def fieldNN (w : Word) : Byte := w.extractLsb' 0 8
/-- `nnn = w[11:0]`. -/
def fieldNNN (w : Word) : Addr12 := w.extractLsb' 0 12

/-! ### Decode (R99) -/

/-- Family 0: CLS, RET, and the exit trap for every other `0nnn` (R99, R102). -/
def decode0 (w : Word) : Instr :=
  if w = 0x00E0#16 then .cls else if w = 0x00EE#16 then .ret else .exit (fieldNNN w)

/-- Family 8, by `n` (R99). -/
def decode8 (x y : RegIdx) (n : Nat) : Option Instr :=
  match n with
  | 0x0 => some (.ldReg x y)
  | 0x1 => some (.or x y)
  | 0x2 => some (.and x y)
  | 0x3 => some (.xor x y)
  | 0x4 => some (.addReg x y)
  | 0x5 => some (.sub x y)
  | 0x6 => some (.shr x y)
  | 0x7 => some (.subn x y)
  | 0xE => some (.shl x y)
  | _ => none

/-- Family E, by `nn` (R99). -/
def decodeE (x : RegIdx) (nn : Nat) : Option Instr :=
  match nn with
  | 0x9E => some (.skp x)
  | 0xA1 => some (.sknp x)
  | _ => none

/-- Family F, by `nn` (R99). -/
def decodeF (x : RegIdx) (nn : Nat) : Option Instr :=
  match nn with
  | 0x07 => some (.ldVxDt x)
  | 0x0A => some (.ldVxK x)
  | 0x15 => some (.ldDtVx x)
  | 0x18 => some (.ldStVx x)
  | 0x1E => some (.addI x)
  | 0x29 => some (.ldF x)
  | 0x33 => some (.ldB x)
  | 0x55 => some (.stRegs x)
  | 0x65 => some (.ldRegs x)
  | _ => none

/-- `Decode(w)` of R99, by the major opcode; `none` exactly on the illegal words of R101. -/
def decodeWord (w : Word) : Option Instr :=
  match (fieldA w).toNat with
  | 0x0 => some (decode0 w)
  | 0x1 => some (.jp (fieldNNN w))
  | 0x2 => some (.call (fieldNNN w))
  | 0x3 => some (.seImm (fieldX w) (fieldNN w))
  | 0x4 => some (.sneImm (fieldX w) (fieldNN w))
  | 0x5 => if fieldN w = 0x0#4 then some (.seReg (fieldX w) (fieldY w)) else none
  | 0x6 => some (.ldImm (fieldX w) (fieldNN w))
  | 0x7 => some (.addImm (fieldX w) (fieldNN w))
  | 0x8 => decode8 (fieldX w) (fieldY w) (fieldN w).toNat
  | 0x9 => if fieldN w = 0x0#4 then some (.sneReg (fieldX w) (fieldY w)) else none
  | 0xA => some (.ldI (fieldNNN w))
  | 0xB => some (.jpV0 (fieldNNN w))
  | 0xC => some (.rnd (fieldX w) (fieldNN w))
  | 0xD => some (.drw (fieldX w) (fieldY w) (fieldN w))
  | 0xE => decodeE (fieldX w) (fieldNN w).toNat
  | 0xF => decodeF (fieldX w) (fieldNN w).toNat
  | _ => none

/-! ### Bytes (R65, R90) -/

/-- The word whose high byte is at the lower address: `hi << 8 | lo` (R65, R93). -/
def wordOfBytes (hi lo : Byte) : Word := (hi.setWidth 16 <<< 8) ||| lo.setWidth 16

/-- The byte of a word that lies at the lower address (R65). -/
def highByte (w : Word) : Byte := w.extractLsb' 8 8
/-- The byte of a word that lies at the higher address (R65). -/
def lowByte (w : Word) : Byte := w.extractLsb' 0 8

/-- What decoding a byte list answers. -/
inductive Decoded where
  /-- An instruction, and the bytes after its two. -/
  | instr (i : Instr) (rest : List Byte)
  /-- The word matches no pattern: `InvalidOpcode` (R101). -/
  | illegal (w : Word)
  /-- Fewer than the two bytes of an instruction (R90). -/
  | truncated
  deriving DecidableEq, Repr

/-- Decoding of any byte list: every instruction is two bytes, the high byte first (R65, R90). -/
def decode : List Byte → Decoded
  | hi :: lo :: rest =>
    match decodeWord (wordOfBytes hi lo) with
    | some i => .instr i rest
    | none => .illegal (wordOfBytes hi lo)
  | [] | [_] => .truncated

/-! ### Encode: the words of the table's patterns (R99, R100) -/

/-- The word with the nibbles `[a, b, c, d]`, `a` the most significant (R10). -/
def wordOfNibbles (a b c d : BitVec 4) : Word := a ++ b ++ c ++ d

/-- The high nibble of a byte. -/
def highNibble (b : Byte) : BitVec 4 := b.extractLsb' 4 4
/-- The low nibble of a byte. -/
def lowNibble (b : Byte) : BitVec 4 := b.extractLsb' 0 4

/-- The pattern `annn`. -/
def encodeNNN (a : BitVec 4) (nnn : Addr12) : Word :=
  wordOfNibbles a (nnn.extractLsb' 8 4) (nnn.extractLsb' 4 4) (nnn.extractLsb' 0 4)

/-- The pattern `axnn`. -/
def encodeXNN (a : BitVec 4) (x : RegIdx) (nn : Byte) : Word :=
  wordOfNibbles a x (highNibble nn) (lowNibble nn)

/-- The one word of an instruction, from the pattern column of R100. -/
def encode : Instr → Word
  | .cls => 0x00E0#16
  | .ret => 0x00EE#16
  | .exit nnn => encodeNNN 0x0#4 nnn
  | .jp nnn => encodeNNN 0x1#4 nnn
  | .call nnn => encodeNNN 0x2#4 nnn
  | .seImm x nn => encodeXNN 0x3#4 x nn
  | .sneImm x nn => encodeXNN 0x4#4 x nn
  | .seReg x y => wordOfNibbles 0x5#4 x y 0x0#4
  | .ldImm x nn => encodeXNN 0x6#4 x nn
  | .addImm x nn => encodeXNN 0x7#4 x nn
  | .ldReg x y => wordOfNibbles 0x8#4 x y 0x0#4
  | .or x y => wordOfNibbles 0x8#4 x y 0x1#4
  | .and x y => wordOfNibbles 0x8#4 x y 0x2#4
  | .xor x y => wordOfNibbles 0x8#4 x y 0x3#4
  | .addReg x y => wordOfNibbles 0x8#4 x y 0x4#4
  | .sub x y => wordOfNibbles 0x8#4 x y 0x5#4
  | .shr x y => wordOfNibbles 0x8#4 x y 0x6#4
  | .subn x y => wordOfNibbles 0x8#4 x y 0x7#4
  | .shl x y => wordOfNibbles 0x8#4 x y 0xE#4
  | .sneReg x y => wordOfNibbles 0x9#4 x y 0x0#4
  | .ldI nnn => encodeNNN 0xA#4 nnn
  | .jpV0 nnn => encodeNNN 0xB#4 nnn
  | .rnd x nn => encodeXNN 0xC#4 x nn
  | .drw x y n => wordOfNibbles 0xD#4 x y n
  | .skp x => encodeXNN 0xE#4 x 0x9E#8
  | .sknp x => encodeXNN 0xE#4 x 0xA1#8
  | .ldVxDt x => encodeXNN 0xF#4 x 0x07#8
  | .ldVxK x => encodeXNN 0xF#4 x 0x0A#8
  | .ldDtVx x => encodeXNN 0xF#4 x 0x15#8
  | .ldStVx x => encodeXNN 0xF#4 x 0x18#8
  | .addI x => encodeXNN 0xF#4 x 0x1E#8
  | .ldF x => encodeXNN 0xF#4 x 0x29#8
  | .ldB x => encodeXNN 0xF#4 x 0x33#8
  | .stRegs x => encodeXNN 0xF#4 x 0x55#8
  | .ldRegs x => encodeXNN 0xF#4 x 0x65#8

/-- The bytes of an instruction as memory holds them, the high byte first (R65). -/
def encodeBytes (i : Instr) : List Byte := [highByte (encode i), lowByte (encode i)]

/-- The instruction the decoder reads from a row's word, numbered as spec/opcode_table.json numbers it: every row is
one 16-bit word, laid out high byte first and given to `decode`. -/
def decodeTableWord (_nbits w : Nat) : Option Instr :=
  match decode [highByte (BitVec.ofNat 16 w), lowByte (BitVec.ofNat 16 w)] with
  | .instr i _ => some i
  | .illegal _ | .truncated => none

end Sys2Proof
end

