-- ==== Sys2Proof/Config.lean ====
section
/-! DEFINITION. The implementation parameters of 00_scope.md R9, each at the default "this hardware takes", and the
draws of R12 as free values (constants with no body). Log 4 and log 7. -/

namespace Sys2Proof.Config

/-- `MEM_SIZE`: bytes of memory. -/
abbrev memSize : Nat := 4096
/-- `NUM_V`: general registers. -/
abbrev numV : Nat := 16
/-- `V_WIDTH`: bits of a V register. -/
abbrev vWidth : Nat := 8
/-- `I_WIDTH`: bits of the index register. -/
abbrev iWidth : Nat := 16
/-- `PC_WIDTH`: bits of the pc (D2). -/
abbrev pcWidth : Nat := 16
/-- `STACK_DEPTH`: capacity of the call stack in entries. -/
abbrev stackDepth : Nat := 16
/-- `DISP_W`: display width in pixels. -/
abbrev dispW : Nat := 64
/-- `DISP_H`: display height in pixels. -/
abbrev dispH : Nat := 32
/-- `NUM_KEYS`: keys in the input latch. -/
abbrev numKeys : Nat := 16
/-- `FONT_BASE`: where the font image is loaded. -/
abbrev fontBase : Nat := 0x000
/-- `PROGRAM_BASE`: where the program image is loaded and the pc starts. -/
abbrev programBase : Nat := 0x200
/-- `RESERVED_END`: end (exclusive) of the reserved region. -/
abbrev reservedEnd : Nat := 0x200
/-- `FONT_STRIDE`: bytes per font glyph (D6: an open parameter with default 5). -/
abbrev fontStride : Nat := 5
/-- `TIMER_RATE`, nominal, in Hz: "no rule depends on it". -/
abbrev timerRateHz : Nat := 60

/-- A V register (R20). At the default `V_WIDTH` it holds one byte, "exactly 8 bits, as is each register" (R195). -/
abbrev VReg := BitVec vWidth

/-- The index register (R24). -/
abbrev IReg := BitVec iWidth

/-- The pc (R25). -/
abbrev PcReg := BitVec pcWidth

/-- A call-stack entry: "16-bit entries" (D27), wide enough for the return address MEM_SIZE (R27). -/
abbrev StackEntry := BitVec 16

/-- The two readings of `KEY_WAIT_MODE` (D8; 44_timers_input.md R236). -/
inductive KeyWaitMode where
  | edge
  | level
  deriving DecidableEq, Repr

/-- The three readings of `VF_ALIAS` (D10; 41_alu.md R161). -/
inductive VfAlias where
  | sequential
  | operandsFirst
  | flagLast
  deriving DecidableEq, Repr

/-- `KEY_WAIT_MODE`, default `edge`. -/
def keyWaitMode : KeyWaitMode := .edge

/-- `VF_ALIAS`, default `sequential`. -/
def vfAlias : VfAlias := .sequential

/-- FREE VALUE (log 4): the byte of the `n`-th draw (`draw Byte`, R12, R175). It has no body. -/
opaque randomByte : Nat → Byte

/-- FREE VALUE (log 4, log 16): the number by which the `n`-th draw takes a member of a non-empty set
(`draw k in S`, R12, R236). It has no body. -/
opaque setChoice : Nat → Nat

end Sys2Proof.Config
end

