-- ==== Sys2Proof/Machine/State.lean ====
section
/-! DEFINITION. The state of the core (10_state.md R20 to R36), its faults (60_exceptions.md R250), the host's calls
(R275), and the state after reset (70_reset_and_hazards.md R290, R291). -/

namespace Sys2Proof.Machine

/-- Memory: (address, byte) pairs, addresses strictly rising, no listed byte 0 (`Memory.wf` in Machine/Ops.lean). An
unlisted address reads 0x00, memory being "created zeroed" (R36, R60, R290; log 8). -/
abbrev Memory := List Host.Cell

/-- The display buffer: row `y`, then column `x`; `true` is a set pixel (R30). -/
abbrev Display := Vector (Vector Bool Config.dispW) Config.dispH

/-- 16 key states, `true` meaning pressed (R31, R33). -/
abbrev KeySet := Vector Bool Config.numKeys

/-- The fault kinds of R250 with their payloads. A step that raises one is a NEXT state whose status and result hold it
(R251, log 1). The `Fault(e)` of an engine that is already faulted (R252) or not yet runnable (R253) is a next state too,
which differs in the result alone. No step answers the outcome `fault`. -/
inductive Fault where
  /-- Code 1: a step before both images are loaded (R253). Returned by the gate, in the result alone. Safe: the spec's own
  fault. -/
  | noProgramLoaded
  /-- Code 2: decode matched no pattern (R101). Raised by the fetch cycle. Safe: the spec's own fault. -/
  | invalidOpcode (pc : Config.PcReg) (opcode : Word)
  /-- Code 3: "a defensive invariant": no rule raises it (R21), nothing in the model does. Safe. -/
  | invalidRegister (index : Nat)
  /-- Code 4: an address at or above MEM_SIZE: fetch, data range, next pc, key-wait completion (R250). `opcode` is
  `none` when the fetch itself failed. Safe: the spec's own fault. -/
  | outOfBounds (pc : Config.PcReg) (opcode : Option Word) (addr : Nat)
  /-- Code 5: CALL with a full stack (R134). Safe: the spec's own fault. -/
  | stackOverflow (pc : Config.PcReg) (opcode : Word)
  /-- Code 6: RET with an empty stack (R131). Safe: the spec's own fault. -/
  | stackUnderflow (pc : Config.PcReg) (opcode : Word)
  /-- Code 7: a key index or digit above 0xF in Fx29, Ex9E, ExA1 (R192, R233, R234). Safe: the spec's own fault. -/
  | operandOutOfRange (pc : Config.PcReg) (opcode : Word) (value : Byte)
  deriving DecidableEq, Repr

/-- Why the model gives an instruction no meaning. -/
inductive Refusal where
  /-- The instruction has no meaning yet; raised only by an arm of `exec`. Safe: the machine stops. No arm raises it. -/
  | notModelled (mnemonic : String)
  deriving DecidableEq, Repr

/-- The engine status (R32). -/
inductive Status where
  | running
  /-- A key wait of `Fx0A` with destination `x` is pending (R235). -/
  | awaitingKey (x : RegIdx)
  /-- A fault was raised; only reset leaves this status (R252). -/
  | faulted (e : Fault)
  deriving DecidableEq, Repr

/-- MODEL'S OWN (log 2): what the host's last call returned. -/
inductive Result where
  /-- The call returns nothing: construct, reset, a load that succeeds, a key write, a tick (R275). -/
  | noValue
  /-- `Continue` (R94). -/
  | continued
  /-- `Halt(v)` (R94, R132). -/
  | halted (v : Addr12)
  /-- `Fault(e)` (R94, R251). -/
  | faulted (e : Fault)
  /-- A host load past the end of memory: refused, nothing changed (R71). -/
  | loadOutOfBounds
  deriving DecidableEq, Repr

/-- The host's calls that change the machine (R275). Its reads change nothing and are functions (Machine/HostCalls.lean);
`run` is a loop over `step` (Machine/Run.lean). -/
inductive HostCall where
  | construct
  | reset
  | loadFont (bytes : List Byte)
  | loadProgram (bytes : List Byte)
  | load (offset : Nat) (bytes : List Byte)
  | writeKeys (keys : KeySet)
  | tick
  | step
  deriving DecidableEq, Repr

/-- The machine: the spec's state (R36), then three fields of the model's own. -/
structure State where
  /-- `MEM` (R60). -/
  mem : Memory
  /-- `V[0..15]` (R20). -/
  v : Vector Config.VReg Config.numV
  /-- `I` (R24). -/
  index : Config.IReg
  /-- `pc` (R25). -/
  pc : Config.PcReg
  /-- `STACK[0..15]` (R27). -/
  stack : Vector Config.StackEntry Config.stackDepth
  /-- `SP`, the number of stack entries in use, 0 to 16 (R27). -/
  sp : Fin (Config.stackDepth + 1)
  /-- `DT` (R28). -/
  dt : Byte
  /-- `ST` (R28). -/
  st : Byte
  /-- `DISP` (R30). -/
  disp : Display
  /-- `KEY`, the input latch (R31). -/
  keys : KeySet
  /-- The engine status (R32). -/
  status : Status
  /-- `KSNAP` (R33). -/
  ksnap : KeySet
  /-- MODEL'S OWN (log 4): how many draws the environment has supplied. -/
  draws : Nat
  /-- MODEL'S OWN (log 2): what the last call returned. -/
  result : Result
  /-- MODEL'S OWN (log 3): the host's coming calls, in order. When it is empty the host calls `step`. -/
  schedule : List HostCall
  deriving DecidableEq, Repr

/-- The display with every pixel `false` (R30, R210). -/
def Display.blank : Display := Vector.replicate _ (Vector.replicate _ false)

/-- No key pressed (R31). -/
def KeySet.none : KeySet := Vector.replicate _ false

/-- The machine right after construction or reset (R36, R290, R291). The input latch is all `false`, as at construction;
the host's reset call keeps the latch it finds (`hostReset`). The last three fields are the model's own (log 2 to 4). -/
def State.reset : State where
  mem := []
  v := Vector.replicate _ 0#Config.vWidth
  index := 0#Config.iWidth
  pc := BitVec.ofNat Config.pcWidth Config.programBase
  stack := Vector.replicate _ 0x0000#16
  sp := 0
  dt := 0x00#8
  st := 0x00#8
  disp := Display.blank
  keys := KeySet.none
  status := .running
  ksnap := KeySet.none
  draws := 0
  result := .noValue
  schedule := []

end Sys2Proof.Machine
end

