-- ==== Sys2Proof/Machine/Ops.lean ====
section
/-! DEFINITION. The shared operations: memory (20_memory.md), registers, call stack, display (10_state.md), taking a
fault (60_exceptions.md R251) and committing an instruction (30_encoding.md R95 to R98). -/

namespace Sys2Proof.Machine

/-- What a step answers. -/
abbrev StepOutcome := Host.Outcome State Fault Refusal

/-! ### Memory -/

/-- The byte at `a` (R62, in range); an unlisted address reads 0x00. -/
def Memory.read : Memory → Nat → Byte
  | [], _ => 0x00#8
  | c :: m, a => if c.1 = a then c.2 else Memory.read m a

/-- Put byte `b` before the rest of a list, unless it is what an unlisted address reads as. -/
def Memory.putCell (a : Nat) (b : Byte) (m : Memory) : Memory :=
  if b = 0x00#8 then m else (a, b) :: m

/-- `MEM[a] <- b` (R63), keeping the canonical form. -/
def Memory.write : Memory → Nat → Byte → Memory
  | [], a, b => Memory.putCell a b []
  | c :: m, a, b =>
    if a < c.1 then Memory.putCell a b (c :: m)
    else if a = c.1 then Memory.putCell a b m
    else c :: Memory.write m a b

/-- The canonical form from address `lo` on. -/
def Memory.wfFrom : Nat → Memory → Bool
  | _, [] => true
  | lo, c :: m => decide (lo ≤ c.1) && decide (c.1 < Config.memSize) && c.2 != 0x00#8 && Memory.wfFrom (c.1 + 1) m

/-- The canonical form: addresses strictly rising and below MEM_SIZE (R60), no listed byte 0. -/
def Memory.wf (m : Memory) : Bool := Memory.wfFrom 0 m

/-- Consecutive bytes from `base` on. -/
def Memory.readBytes (m : Memory) (base count : Nat) : List Byte :=
  (List.range count).map fun k => m.read (base + k)

/-- `MEM[base + k] <- bytes[k]`, in order (R71, R193, R194). -/
def Memory.writeBytes (m : Memory) (base : Nat) : List Byte → Memory
  | [] => m
  | b :: bs => Memory.writeBytes (m.write base b) (base + 1) bs

/-- Some byte of `MEM[lo .. hi-1]` is non-zero (R70); a byte that no cell lists is zero. -/
def Memory.anyNonzero (m : Memory) (lo hi : Nat) : Bool :=
  m.any fun c => decide (lo ≤ c.1) && decide (c.1 < hi) && Memory.read m c.1 != 0x00#8

/-- `fontLoaded` (R70). -/
def Memory.fontLoaded (m : Memory) : Bool := m.anyNonzero 0 Config.reservedEnd

/-- `programLoaded` (R70). -/
def Memory.programLoaded (m : Memory) : Bool := m.anyNonzero Config.programBase Config.memSize

/-- `MemRead(addr, 1)` with its check: the byte, or the address that is out of bounds (R62). -/
def Memory.checkedRead (m : Memory) (a : Nat) : Except Nat Byte :=
  if Config.memSize ≤ a then .error a else .ok (m.read a)

/-- The check of an access to the `count` bytes from `base` on, made before any of them: the lowest address at or above
MEM_SIZE if there is one, `max(base, MEM_SIZE)`; no bytes, no check (R64). -/
def rangeFault (base count : Nat) : Option Nat :=
  if 0 < count ∧ Config.memSize < base + count then some (max base Config.memSize) else none

/-! ### General registers, call stack, key latch -/

/-- `V[x]` (R20). -/
def State.getV (s : State) (x : RegIdx) : Config.VReg := s.v[x.toNat]'x.isLt

/-- `V[x] <- b` (R20: no register is hardwired). -/
def State.setV (s : State) (x : RegIdx) (b : Config.VReg) : State := { s with v := s.v.set x.toNat b x.isLt }

/-- `V0 .. Vx` (R194). -/
def State.regsUpTo (s : State) (x : RegIdx) : List Byte :=
  (List.range (x.toNat + 1)).map fun k => s.getV (BitVec.ofNat 4 k)

/-- `V[k + i] <- bytes[i]`, in order (R195). -/
def State.setRegsFrom (s : State) (k : Nat) : List Byte → State
  | [] => s
  | b :: bs => State.setRegsFrom (s.setV (BitVec.ofNat 4 k) b) (k + 1) bs

/-- Push (R27): `none` when the stack is full. -/
def State.push (s : State) (w : Config.StackEntry) : Option State :=
  if h : s.sp.val < Config.stackDepth then
    some { s with stack := s.stack.set s.sp.val w h, sp := ⟨s.sp.val + 1, Nat.succ_lt_succ h⟩ }
  else none

/-- Pop (R27): the entry and the state with it taken off; `none` when the stack is empty. -/
def State.pop (s : State) : Option (Config.StackEntry × State) :=
  if h : 0 < s.sp.val then
    some (s.stack[s.sp.val - 1]'(Nat.lt_of_lt_of_le (Nat.sub_one_lt_of_lt h) (Nat.le_of_lt_succ s.sp.isLt)),
      { s with sp := ⟨s.sp.val - 1, Nat.lt_of_le_of_lt (Nat.sub_le _ _) s.sp.isLt⟩ })
  else none

/-- `KEY[k]` (R31). -/
def KeySet.pressed (ks : KeySet) (k : RegIdx) : Bool := ks[k.toNat]'k.isLt

/-! ### Display (R30) -/

/-- `DISP[x][y]`. -/
def Display.pixel (d : Display) (x : Fin Config.dispW) (y : Fin Config.dispH) : Bool := d[y.val][x.val]

/-- `DISP[x][y] <- not DISP[x][y]`. -/
def Display.flip (d : Display) (x : Fin Config.dispW) (y : Fin Config.dispH) : Display :=
  d.set y.val (d[y.val].set x.val (!d.pixel x y))

/-! ### Taking a fault (R251) -/

/-- Take a fault: every write of the step is discarded, the status becomes `Faulted(e)`, the step returns `Fault(e)`;
the pc still holds the address of the faulting instruction. There is no handler, no saved pc and no mode (R257), and no
return but the host's reset (R252, R258). -/
def takeFault (e : Fault) (s : State) : StepOutcome :=
  .next { s with status := .faulted e, result := .faulted e }

/-! ### Committing an instruction (R95 to R98) -/

/-- What an instruction's pseudocode leaves: a working copy of the state with the next pc (a mathematical integer) and
the step's result, or a raised fault. -/
inductive Effect where
  | done (t : State) (npc : Nat) (r : Result)
  | raised (e : Fault)
  deriving DecidableEq, Repr

/-- The pc as a number. -/
def State.pcNat (s : State) : Nat := s.pc.toNat

/-- The instruction leaves `npc = pc + 2` (R98). -/
def advance (s t : State) : Effect := .done t (s.pcNat + 2) .continued

/-- The instruction sets `npc` to a target (R98, R130). -/
def transfer (t : State) (target : Nat) : Effect := .done t target .continued

/-- A skip: `pc + 4` when the condition holds, else `pc + 2` (R98). -/
def skipIf (c : Bool) (s : State) : Effect := .done s (if c then s.pcNat + 4 else s.pcNat + 2) .continued

/-- The `OutOfBounds` of instruction `i` at `s` (R250): its pc, its word, the address (log 9). -/
def outOfBoundsAt (i : Instr) (s : State) (a : Nat) : Fault := .outOfBounds s.pc (some (encode i)) a

/-- Guard an effect by the range check of R64. -/
def guardRange (i : Instr) (s : State) (base count : Nat) (eff : Effect) : Effect :=
  match rangeFault base count with
  | some a => .raised (outOfBoundsAt i s a)
  | none => eff

/-- End of the step of instruction `i` at `s`: a raised fault is taken; a next pc at or above MEM_SIZE raises
`OutOfBounds(npc)` and nothing is committed; otherwise the working copy becomes the state, with `pc <- npc` (R95 to
R97). -/
def commit (i : Instr) (s : State) : Effect → StepOutcome
  | .raised e => takeFault e s
  | .done t npc r =>
    if Config.memSize ≤ npc then takeFault (outOfBoundsAt i s npc) s
    else .next { t with pc := BitVec.ofNat Config.pcWidth npc, result := r }

end Sys2Proof.Machine
end

