-- ==== Sys2Proof/Machine/Operands.lean ====
section
/-! DEFINITION. Operand forms: immediates (30_encoding.md R92), the range-checked operands of Fx29, Ex9E and ExA1
(42_index_memory.md R192, 44_timers_input.md R233, R234), the addressing mode `I + k`, sprite pixels (43_display.md). -/

namespace Sys2Proof.Machine

/-- `nnn` as an absolute byte address (R92). -/
def target (nnn : Addr12) : Nat := nnn.toNat

/-- `zext_16(nnn)`, to the width of `I` (R190). -/
def indexImm (nnn : Addr12) : Config.IReg := nnn.setWidth Config.iWidth

/-- The address `I` as a mathematical integer (R64). -/
def State.indexNat (s : State) : Nat := s.index.toNat

/-- A byte operand that must be a hex digit: `none` when it is above 0xF (R192, R233, R234). -/
def hexDigit (b : Byte) : Option RegIdx := if 0xF < b.toNat then none else some (b.setWidth 4)

/-- Guard an effect of instruction `i` by the digit check on the byte `b`; a value above 0xF raises
`OperandOutOfRange(b)` (D6, D7, D16). -/
def withDigit (i : Instr) (s : State) (b : Byte) (k : RegIdx → Effect) : Effect :=
  match hexDigit b with
  | some d => k d
  | none => .raised (.operandOutOfRange s.pc (encode i) b)

/-- `FONT_BASE + FONT_STRIDE * d`, the address of the glyph of digit `d` (R192). -/
def glyphAddress (stride : Nat) (d : RegIdx) : Config.IReg :=
  BitVec.ofNat Config.iWidth (Config.fontBase + stride * d.toNat)

/-- The three decimal digits of a byte: hundreds, tens, units (R193). -/
def bcdDigits (b : Byte) : List Byte := [b / 100#8, (b / 10#8) % 10#8, b % 10#8]

/-- The column `(X + j) mod DISP_W` (R211). -/
def column (X j : Nat) : Fin Config.dispW := Fin.ofNat Config.dispW (X + j)

/-- The row `(Y + r) mod DISP_H` (R211). -/
def row (Y r : Nat) : Fin Config.dispH := Fin.ofNat Config.dispH (Y + r)

/-- The pixels that sprite row `r` with byte `b` toggles, from the left: bit 7 is column offset 0, a 0 bit leaves its
pixel (R212). -/
def rowPixels (X Y r : Nat) (b : Byte) : List (Fin Config.dispW × Fin Config.dispH) :=
  ((List.range 8).filter fun j => b.getLsbD (7 - j)).map fun j => (column X j, row Y r)

/-- The pixels a sprite toggles, its rows from `r` on, in the order of R211's loops. -/
def spritePixels (X Y r : Nat) : List Byte → List (Fin Config.dispW × Fin Config.dispH)
  | [] => []
  | b :: bs => rowPixels X Y r b ++ spritePixels X Y (r + 1) bs

/-- XOR-draw a list of pixels, gathering the collision: a pixel found set is a collision (R211, R213). -/
def drawPixels (d : Display) (collision : Bool) :
    List (Fin Config.dispW × Fin Config.dispH) → Display × Bool
  | [] => (d, collision)
  | p :: ps => drawPixels (d.flip p.1 p.2) (collision || d.pixel p.1 p.2) ps

end Sys2Proof.Machine
end

