-- ==== Sys2Proof/Machine/Flags.lean ====
section
/-! DEFINITION. The flag computations and the order of result and flag writes: 41_alu.md R160, R161, R169; 10_state.md
R22. -/

namespace Sys2Proof.Machine

/-- A flag as the byte 1 or 0 that VF receives (R169). -/
def flagByte (b : Bool) : Byte := if b then 0x01#8 else 0x00#8

/-- The carry of `8xy4`: the unsigned sum exceeds 255 (R160). -/
def carryOut (a b : Byte) : Bool := decide (255 < a.toNat + b.toNat)

/-- The not-borrow of `a - b`: the minuend is at least the subtrahend (R160). -/
def notBorrow (a b : Byte) : Bool := decide (b.toNat ≤ a.toNat)

/-- The bit `8xy6` shifts out, bit 0, as a byte (R172). -/
def lowBit (a : Byte) : Byte := a &&& 0x01#8

/-- The bit `8xyE` shifts out, bit 7, as a byte (R174). -/
def highBit (a : Byte) : Byte := (a >>> 7) &&& 0x01#8

/-- `Vx` then VF (R161): the order of `8xy4`, `8xy5`, `8xy7`. -/
def State.setResultThenFlag (s : State) (x : RegIdx) (r : Byte) (flag : Bool) : State :=
  (s.setV x r).setV regF (flagByte flag)

/-- The writes of a shift of `Vx` with shifted-out bit `out` and result `shift`, in each reading of `VF_ALIAS`; the
readings differ only when `x = 0xF` (R161). -/
def State.setShift (mode : Config.VfAlias) (s : State) (x : RegIdx) (out shift : Byte → Byte) : State :=
  let flagged := s.setV regF (out (s.getV x))
  match mode with
  | .sequential => flagged.setV x (shift (flagged.getV x))
  | .operandsFirst => flagged.setV x (shift (s.getV x))
  | .flagLast => (s.setV x (shift (s.getV x))).setV regF (out (s.getV x))

end Sys2Proof.Machine
end

