-- ==== Sys2Proof/Machine/Alu.lean ====
section
/-! DEFINITION. Register loads and arithmetic: 41_alu.md R160 to R175. -/

namespace Sys2Proof.Machine

/-- LD Vx, nn (R162). -/
def execLdImm (x : RegIdx) (nn : Byte) (s : State) : StepOutcome :=
  commit (.ldImm x nn) s (advance s (s.setV x nn))

/-- ADD Vx, nn (R163): wraps, no flag. -/
def execAddImm (x : RegIdx) (nn : Byte) (s : State) : StepOutcome :=
  commit (.addImm x nn) s (advance s (s.setV x (s.getV x + nn)))

/-- LD Vx, Vy (R164). -/
def execLdReg (x y : RegIdx) (s : State) : StepOutcome :=
  commit (.ldReg x y) s (advance s (s.setV x (s.getV y)))

/-- OR Vx, Vy (R165, R168: no flag). -/
def execOr (x y : RegIdx) (s : State) : StepOutcome :=
  commit (.or x y) s (advance s (s.setV x (s.getV x ||| s.getV y)))

/-- AND Vx, Vy (R166, R168: no flag). -/
def execAnd (x y : RegIdx) (s : State) : StepOutcome :=
  commit (.and x y) s (advance s (s.setV x (s.getV x &&& s.getV y)))

/-- XOR Vx, Vy (R167, R168: no flag). -/
def execXor (x y : RegIdx) (s : State) : StepOutcome :=
  commit (.xor x y) s (advance s (s.setV x (s.getV x ^^^ s.getV y)))

/-- ADD Vx, Vy (R170): VF = carry. -/
def execAddReg (x y : RegIdx) (s : State) : StepOutcome :=
  commit (.addReg x y) s <| advance s <|
    s.setResultThenFlag x (s.getV x + s.getV y) (carryOut (s.getV x) (s.getV y))

/-- SUB Vx, Vy (R171): VF = not-borrow of `Vx - Vy`. -/
def execSub (x y : RegIdx) (s : State) : StepOutcome :=
  commit (.sub x y) s <| advance s <|
    s.setResultThenFlag x (s.getV x - s.getV y) (notBorrow (s.getV x) (s.getV y))

/-- SHR Vx (R172): `y` is ignored (R103); VF = old bit 0. -/
def execShr (x y : RegIdx) (s : State) : StepOutcome :=
  commit (.shr x y) s (advance s (s.setShift Config.vfAlias x lowBit (· >>> 1)))

/-- SUBN Vx, Vy (R173): VF = not-borrow of `Vy - Vx`. -/
def execSubn (x y : RegIdx) (s : State) : StepOutcome :=
  commit (.subn x y) s <| advance s <|
    s.setResultThenFlag x (s.getV y - s.getV x) (notBorrow (s.getV y) (s.getV x))

/-- SHL Vx (R174): `y` is ignored (R103); VF = old bit 7. -/
def execShl (x y : RegIdx) (s : State) : StepOutcome :=
  commit (.shl x y) s (advance s (s.setShift Config.vfAlias x highBit (· <<< 1)))

/-- RND Vx, nn (R175): a drawn byte (R12, log 4) AND `nn`. -/
def execRnd (x : RegIdx) (nn : Byte) (s : State) : StepOutcome :=
  commit (.rnd x nn) s <| advance s <|
    { s.setV x (Config.randomByte s.draws &&& nn) with draws := s.draws + 1 }

end Sys2Proof.Machine
end

