-- ==== Sys2Proof/Machine/ControlFlow.lean ====
section
/-! DEFINITION. Control flow: 40_control_flow.md R130 to R139. -/

namespace Sys2Proof.Machine

/-- RET (R131): pop into the pc, not advanced further; `StackUnderflow` on an empty stack. -/
def execRet (s : State) : StepOutcome :=
  commit .ret s <|
    match s.pop with
    | some (w, t) => transfer t w.toNat
    | none => .raised (.stackUnderflow s.pc (encode .ret))

/-- EXIT (R132): the step returns `Halt(nnn)`, the pc moves past it, the status stays. -/
def execExit (nnn : Addr12) (s : State) : StepOutcome :=
  commit (.exit nnn) s (.done s (s.pcNat + 2) (.halted nnn))

/-- JP (R133). -/
def execJp (nnn : Addr12) (s : State) : StepOutcome :=
  commit (.jp nnn) s (transfer s (target nnn))

/-- CALL (R134): push `pc + 2` and jump; `StackOverflow` on a full stack. -/
def execCall (nnn : Addr12) (s : State) : StepOutcome :=
  commit (.call nnn) s <|
    match s.push (BitVec.ofNat 16 (s.pcNat + 2)) with
    | some t => transfer t (target nnn)
    | none => .raised (.stackOverflow s.pc (encode (.call nnn)))

/-- SE Vx, nn (R135). -/
def execSeImm (x : RegIdx) (nn : Byte) (s : State) : StepOutcome :=
  commit (.seImm x nn) s (skipIf (s.getV x == nn) s)

/-- SNE Vx, nn (R136). -/
def execSneImm (x : RegIdx) (nn : Byte) (s : State) : StepOutcome :=
  commit (.sneImm x nn) s (skipIf (s.getV x != nn) s)

/-- SE Vx, Vy (R137). -/
def execSeReg (x y : RegIdx) (s : State) : StepOutcome :=
  commit (.seReg x y) s (skipIf (s.getV x == s.getV y) s)

/-- SNE Vx, Vy (R138). -/
def execSneReg (x y : RegIdx) (s : State) : StepOutcome :=
  commit (.sneReg x y) s (skipIf (s.getV x != s.getV y) s)

/-- JP V0, nnn (R139): the integer sum, not wrapped. -/
def execJpV0 (nnn : Addr12) (s : State) : StepOutcome :=
  commit (.jpV0 nnn) s (transfer s (target nnn + (s.getV 0x0#4).toNat))

end Sys2Proof.Machine
end

