-- ==== Sys2Proof/Machine/DisplayOps.lean ====
section
/-! DEFINITION. Display instructions and the collision detector: 43_display.md R210 to R213. -/

namespace Sys2Proof.Machine

/-- CLS (R210). -/
def execCls (s : State) : StepOutcome :=
  commit .cls s (advance s { s with disp := Display.blank })

/-- The working copy of DRW (R211): the sprite of `n` rows at `I` XOR-drawn at `(Vx mod 64, Vy mod 32)`, VF = collision.
The coordinates are read before any write. -/
def State.drawSprite (s : State) (x y : RegIdx) (n : Nat) : State :=
  let X := (s.getV x).toNat % Config.dispW
  let Y := (s.getV y).toNat % Config.dispH
  let drawn := drawPixels s.disp false (spritePixels X Y 0 (s.mem.readBytes s.indexNat n))
  { s with disp := drawn.1 }.setV regF (flagByte drawn.2)

/-- DRW Vx, Vy, n (R211): the range check comes before any change; `n = 0` makes none. -/
def execDrw (x y : RegIdx) (n : BitVec 4) (s : State) : StepOutcome :=
  commit (.drw x y n) s <|
    guardRange (.drw x y n) s s.indexNat n.toNat <|
      advance s (s.drawSprite x y n.toNat)

end Sys2Proof.Machine
end

