-- ==== Sys2Proof/Machine/IndexMemory.lean ====
section
/-! DEFINITION. Index register and memory instructions: 42_index_memory.md R190 to R195. -/

namespace Sys2Proof.Machine

/-- LD I, nnn (R190). -/
def execLdI (nnn : Addr12) (s : State) : StepOutcome :=
  commit (.ldI nnn) s (advance s { s with index := indexImm nnn })

/-- ADD I, Vx (R191): modulo 2^`I_WIDTH`, no flag. -/
def execAddI (x : RegIdx) (s : State) : StepOutcome :=
  commit (.addI x) s (advance s { s with index := s.index + (s.getV x).setWidth Config.iWidth })

/-- LD F, Vx (R192). -/
def execLdF (x : RegIdx) (s : State) : StepOutcome :=
  commit (.ldF x) s <|
    withDigit (.ldF x) s (s.getV x) fun d =>
      advance s { s with index := glyphAddress Config.fontStride d }

/-- LD B, Vx (R193): hundreds, tens and units at `I`, `I+1`, `I+2`. -/
def execLdB (x : RegIdx) (s : State) : StepOutcome :=
  commit (.ldB x) s <|
    guardRange (.ldB x) s s.indexNat 3 <|
      advance s { s with mem := s.mem.writeBytes s.indexNat (bcdDigits (s.getV x)) }

/-- LD [I], Vx (R194): store `V0 .. Vx` at `I`; `I` is unchanged. -/
def execStRegs (x : RegIdx) (s : State) : StepOutcome :=
  commit (.stRegs x) s <|
    guardRange (.stRegs x) s s.indexNat (x.toNat + 1) <|
      advance s { s with mem := s.mem.writeBytes s.indexNat (s.regsUpTo x) }

/-- LD Vx, [I] (R195): load `V0 .. Vx` from `I`; `I` is unchanged. -/
def execLdRegs (x : RegIdx) (s : State) : StepOutcome :=
  commit (.ldRegs x) s <|
    guardRange (.ldRegs x) s s.indexNat (x.toNat + 1) <|
      advance s (s.setRegsFrom 0 (s.mem.readBytes s.indexNat (x.toNat + 1)))

end Sys2Proof.Machine
end

