-- ==== Sys2Proof/Machine/TimerInput.lean ====
section
/-! DEFINITION. Timer and input instructions and the key-wait check: 44_timers_input.md R230 to R236. -/

namespace Sys2Proof.Machine

/-- LD Vx, DT (R230). -/
def execLdVxDt (x : RegIdx) (s : State) : StepOutcome :=
  commit (.ldVxDt x) s (advance s (s.setV x s.dt))

/-- LD DT, Vx (R231). -/
def execLdDtVx (x : RegIdx) (s : State) : StepOutcome :=
  commit (.ldDtVx x) s (advance s { s with dt := s.getV x })

/-- LD ST, Vx (R232). -/
def execLdStVx (x : RegIdx) (s : State) : StepOutcome :=
  commit (.ldStVx x) s (advance s { s with st := s.getV x })

/-- SKP Vx (R233). -/
def execSkp (x : RegIdx) (s : State) : StepOutcome :=
  commit (.skp x) s (withDigit (.skp x) s (s.getV x) fun k => skipIf (s.keys.pressed k) s)

/-- SKNP Vx (R234). -/
def execSknp (x : RegIdx) (s : State) : StepOutcome :=
  commit (.sknp x) s (withDigit (.sknp x) s (s.getV x) fun k => skipIf (!s.keys.pressed k) s)

/-- LD Vx, K (R235): only starts the wait; the pc does not advance. -/
def execLdVxK (x : RegIdx) (s : State) : StepOutcome :=
  commit (.ldVxK x) s (transfer { s with status := .awaitingKey x, ksnap := s.keys } s.pcNat)

/-- Whether key `k` completes a wait (R236): newly pressed since the last check, or held now. -/
def keyQualifies (mode : Config.KeyWaitMode) (keys snap : KeySet) (k : RegIdx) : Bool :=
  match mode with
  | .edge => keys.pressed k && !snap.pressed k
  | .level => keys.pressed k

/-- The set `S` of R236, lowest key first. -/
def qualifyingKeys (mode : Config.KeyWaitMode) (keys snap : KeySet) : List RegIdx :=
  ((List.range Config.numKeys).map (BitVec.ofNat 4)).filter (keyQualifies mode keys snap)

/-- `draw k in S` for `S = k0 :: ks` (R12): the member that the free number `n` names. -/
def drawMember (n : Nat) (k0 : RegIdx) (ks : List RegIdx) : RegIdx :=
  (k0 :: ks).getD (n % (ks.length + 1)) k0

/-- The wait completes with key `k` (R236): `Vx <- k`, the engine runs again, past the `Fx0A`. -/
def completeWait (x k : RegIdx) (s : State) : StepOutcome :=
  commit (.ldVxK x) s <| advance s <|
    { s.setV x (k.setWidth Config.vWidth) with ksnap := s.keys, status := .running, draws := s.draws + 1 }

/-- `KeyWaitCheck(x)` (R236) in the given mode: one check of the latch. -/
def keyWaitCheck (mode : Config.KeyWaitMode) (x : RegIdx) (s : State) : StepOutcome :=
  match qualifyingKeys mode s.keys s.ksnap with
  | [] => .next { s with ksnap := s.keys, result := .continued }
  | k0 :: ks => completeWait x (drawMember (Config.setChoice s.draws) k0 ks) s

end Sys2Proof.Machine
end

