-- ==== Sys2Proof/Machine/HostCalls.lean ====
section
/-! DEFINITION. The host interface: 60_exceptions.md R270, R275, R276; 20_memory.md R70 to R73; 70_reset_and_hazards.md
R290 to R293. Each call is one atomic move between two steps (R8). -/

namespace Sys2Proof.Machine

/-- Reset (R290): everything but the input latch goes to its reset value. The host's own future (`schedule`) and the
environment's draws are no state of the core and stay (log 14). -/
def hostReset (s : State) : State :=
  { State.reset with keys := s.keys, draws := s.draws, schedule := s.schedule }

/-- Construction (R291): as reset, and the input latch starts all `false`. -/
def hostConstruct (s : State) : State :=
  { State.reset with draws := s.draws, schedule := s.schedule }

/-- `load(offset, bytes)` (R71): refused, with nothing changed, when it would pass the end of memory. It does not touch
the status. -/
def hostLoad (offset : Nat) (bytes : List Byte) (s : State) : State :=
  if Config.memSize < offset + bytes.length then { s with result := .loadOutOfBounds }
  else { s with mem := s.mem.writeBytes offset bytes, result := .noValue }

/-- The font load (R71, R292): memory only. -/
def hostLoadFont (bytes : List Byte) (s : State) : State := hostLoad Config.fontBase bytes s

/-- The program load (R71, R292): the bytes, then `pc <- PROGRAM_BASE`, and nothing else; a refused load changes nothing
(log 13). -/
def hostLoadProgram (bytes : List Byte) (s : State) : State :=
  if Config.memSize < Config.programBase + bytes.length then { s with result := .loadOutOfBounds }
  else { hostLoad Config.programBase bytes s with pc := BitVec.ofNat Config.pcWidth Config.programBase }

/-- Key write (R276): the latch is replaced. -/
def hostWriteKeys (keys : KeySet) (s : State) : State := { s with keys := keys, result := .noValue }

/-- One timer down by one, never below 0 (R28, R270). -/
def countDown (b : Byte) : Byte := if b = 0x00#8 then 0x00#8 else b - 1

/-- Tick (R270), in every status. -/
def hostTick (s : State) : State := { s with dt := countDown s.dt, st := countDown s.st, result := .noValue }

/-- The host's read of the display (R214). It changes nothing. -/
def readDisplay (s : State) : Display := s.disp

/-- The sound-active output (R29). It changes nothing. -/
def soundActive (s : State) : Bool := s.st != 0x00#8

/-- The host's read of a byte of memory (R73). It changes nothing. R73 is silent on an address at or above MEM_SIZE; the
model takes the contract that R62 quotes, "fail with `OutOfBounds` if `addr >= capacity`": no byte, and the address
(DEDUCED, log 19). -/
def readByte (s : State) (a : Nat) : Except Nat Byte := s.mem.checkedRead a

/-- Both images are loaded, so the core is runnable (R70, R253). -/
def State.runnable (s : State) : Bool := s.mem.fontLoaded && s.mem.programLoaded

end Sys2Proof.Machine
end

