-- ==== Sys2Proof/Machine/Cycle.lean ====
section
/-! DEFINITION. The step cycle: fetch (30_encoding.md R93), the order of one step (R96; 60_exceptions.md R252 to R254),
and the moves of the whole machine, engine and host (R275). -/

namespace Sys2Proof.Machine

/-- The fetch (R93): the word at the pc, big-endian, or the first address out of bounds. -/
def fetchWord (s : State) : Except Nat Word :=
  match s.mem.checkedRead s.pcNat with
  | .error a => .error a
  | .ok hi =>
    match s.mem.checkedRead (s.pcNat + 1) with
    | .error a => .error a
    | .ok lo => .ok (wordOfBytes hi lo)

/-- Execute the fetched word (R96); a word that decodes to nothing raises `InvalidOpcode(pc, w)` (R101). -/
def execWord (w : Word) (s : State) : StepOutcome :=
  match decodeWord w with
  | some i => exec i s
  | none => takeFault (.invalidOpcode s.pc w) s

/-- Fetch, decode, execute, commit (R96). A failed fetch records no opcode (R250). -/
def runInstruction (s : State) : StepOutcome :=
  match fetchWord s with
  | .ok w => execWord w s
  | .error a => takeFault (.outOfBounds s.pc none a) s

/-- A step that returns `Fault(e)` and changes nothing of the core, the status included (R252, R253): only the result
of the call is the model's to write (log 1, log 2). The host may go on calling. -/
def returnFault (e : Fault) (s : State) : StepOutcome := .next { s with result := .faulted e }

/-- `Step()` (R96), in the priority of R254: a sticky fault, the runnable gate, a pending key wait, the instruction. -/
def engineStep (s : State) : StepOutcome :=
  match s.status with
  | .faulted e => returnFault e s
  | .awaitingKey x => if s.runnable then keyWaitCheck Config.keyWaitMode x s else returnFault .noProgramLoaded s
  | .running => if s.runnable then runInstruction s else returnFault .noProgramLoaded s

/-- One call of the host (R275). -/
def hostCall (c : HostCall) (s : State) : StepOutcome :=
  match c with
  | .construct => .next (hostConstruct s)
  | .reset => .next (hostReset s)
  | .loadFont bytes => .next (hostLoadFont bytes s)
  | .loadProgram bytes => .next (hostLoadProgram bytes s)
  | .load offset bytes => .next (hostLoad offset bytes s)
  | .writeKeys keys => .next (hostWriteKeys keys s)
  | .tick => .next (hostTick s)
  | .step => engineStep s

/-- One move of the machine: the host's next call; with none written down, `step` (log 3). -/
def machineStep (s : State) : StepOutcome :=
  match s.schedule with
  | [] => engineStep s
  | c :: rest => hostCall c { s with schedule := rest }

/-! ### Placing an instruction for the next step (log 12) -/

/-- Make a region hold a non-zero byte, if it holds none, at address `a` of it. -/
def ensureLoaded (loaded : Memory → Bool) (a : Nat) (m : Memory) : Memory :=
  if loaded m then m else m.write a 0x01#8

/-- Where the next step fetches: the pc, or PROGRAM_BASE where two bytes do not fit at the pc. -/
def fetchPc (s : State) : Config.PcReg :=
  if s.pcNat + 1 < Config.memSize then s.pc else BitVec.ofNat Config.pcWidth Config.programBase

/-- Put word `w` where the next step fetches, and set what that step needs to reach it: running, no host call before it,
both images loaded (R253), by a byte away from the word where one is missing. -/
def placeFetchWord (s : State) (w : Word) : State :=
  let pc := fetchPc s
  let m := s.mem.writeBytes pc.toNat [highByte w, lowByte w]
  let m := ensureLoaded Memory.fontLoaded (if pc.toNat < 0x100 then 0x1FF else Config.fontBase) m
  let m := ensureLoaded Memory.programLoaded
    (if pc.toNat < 0x800 then Config.memSize - 1 else Config.programBase) m
  { s with mem := m, pc := pc, status := .running, schedule := [] }

end Sys2Proof.Machine
end

