-- ==== Sys2Proof/Machine/Step.lean ====
section
/-! DEFINITION. One step of the machine, and how a program word comes under the next fetch. -/

namespace Sys2Proof.Machine

/-- One move of the machine: the host's next call, or the engine's step (30_encoding.md R96). -/
def step : State → Host.Outcome State Fault Refusal := machineStep

/-- The instruction word `w` (a row of spec/opcode_table.json is one 16-bit word, so `nbits` is 16) stored where the next
step fetches (log 12). -/
def State.withFetchWord (s : State) (_nbits w : Nat) : State := placeFetchWord s (BitVec.ofNat 16 w)

end Sys2Proof.Machine
end

