-- ==== Sys2Proof/Machine/Run.lean ====
section
/-! DEFINITION. The run-to-halt entry point: 60_exceptions.md R279, R280. -/

namespace Sys2Proof.Machine

/-- How a run stands after some moves (R280). -/
inductive RunEnd where
  /-- A step returned `Halt(v)`. -/
  | halted (v : Addr12) (t : State)
  /-- A step returned `Fault(e)`. -/
  | faulted (e : Fault) (t : State)
  /-- Neither yet: a run may have no end. -/
  | unfinished (t : State)
  /-- A step gave no meaning; none does. -/
  | refused (r : Refusal)
  deriving DecidableEq, Repr

/-- `run` (R279): step until `Halt` or `Fault`, for at most `fuel` moves. The host's calls between the steps stand in
the schedule. -/
def runToHalt : Nat → State → RunEnd
  | 0, s => .unfinished s
  | fuel + 1, s =>
    match step s with
    | .fault e => .faulted e s
    | .refused r => .refused r
    | .next t =>
      match t.result with
      | .halted v => .halted v t
      | .faulted e => .faulted e t
      | .noValue | .continued | .loadOutOfBounds => runToHalt fuel t

end Sys2Proof.Machine
end

