-- ==== Sys2Proof/Safety.lean ====
section
/-! DEFINITION. What counts as a safe state and a safe run: the terms of claims. -/

namespace Sys2Proof.Machine

/-- A status the engine can reach: a recorded fault is one that some rule raises during a step, so neither
`NoProgramLoaded` (R253: it leaves the status unchanged) nor `InvalidRegister` (R21: no rule raises it). -/
def Status.legal : Status → Bool
  | .running | .awaitingKey _ => true
  | .faulted .noProgramLoaded | .faulted (.invalidRegister _) => false
  | .faulted (.invalidOpcode _ _) | .faulted (.outOfBounds _ _ _) | .faulted (.stackOverflow _ _)
  | .faulted (.stackUnderflow _ _) | .faulted (.operandOutOfRange _ _ _) => true

/-- The machine invariant: memory in its canonical form (R60), the pc in memory (R25), a legal status (R32). -/
structure State.Inv (s : State) : Prop where
  mem_wf : s.mem.wf = true
  pc_in_memory : s.pcNat < Config.memSize
  status_legal : s.status.legal = true

/-- The engine is faulted (R32). -/
def State.isFaulted (s : State) : Bool :=
  match s.status with
  | .faulted _ => true
  | .running | .awaitingKey _ => false

/-- The last call returned `Fault(e)`: a raised fault, a sticky one, or the gate's (R251 to R253). -/
def State.returnedFault (s : State) : Bool :=
  match s.result with
  | .faulted _ => true
  | .noValue | .continued | .halted _ | .loadOutOfBounds => false

/-- A run of `k` moves from `s` in which no step raises or returns a fault. -/
def SafeFor : Nat → State → Prop
  | 0, s => s.isFaulted = false
  | k + 1, s => s.isFaulted = false ∧ ∃ t, step s = .next t ∧ t.returnedFault = false ∧ SafeFor k t

end Sys2Proof.Machine
end

