-- ==== Sys2Proof/Certificates/Slice0/Obligations.lean ====
section
/-! DEFINITION. The statements for the provers, from the numbered rules of spec/. -/

namespace Sys2Proof.Spec
open Sys2Proof.Machine

/-- The state that raising `e` at `s` leaves: `s` but for the status, and the result of the call (R251). -/
def faultedWith (e : Fault) (s : State) : State := { s with status := .faulted e, result := .faulted e }

/-- The step after which the working copy `t` is committed with `npc = pc + 2` and `Continue` (R96, R98). -/
def plusTwo (s t : State) : State := { t with pc := BitVec.ofNat 16 (s.pcNat + 2), result := .continued }

/-- The same with another next pc. -/
def goTo (npc : Nat) (t : State) : State := { t with pc := BitVec.ofNat 16 npc, result := .continued }

/-- The `OutOfBounds` of instruction `i` at `s` with address `a` (R250). -/
def outOfBounds (i : Instr) (s : State) (a : Nat) : Fault := .outOfBounds s.pc (some (encode i)) a

/-- The register file holds `f`. -/
def RegsAre (v : Vector Byte Config.numV) (f : RegIdx → Byte) : Prop := ∀ r : RegIdx, v[r.toNat]'r.isLt = f r

/-- `i` at `s` completes with the register file `f`, the pc 2 further, and everything else as it was. -/
def CompletesWithRegs (i : Instr) (s : State) (f : RegIdx → Byte) : Prop :=
  ∃ v', RegsAre v' f ∧ exec i s = .next (plusTwo s { s with v := v' })

/-- `i` at `s` skips the next instruction exactly when `c` holds, and changes nothing but the pc. -/
def SkipsWhen (i : Instr) (s : State) (c : Prop) : Prop :=
  (c → s.pcNat + 4 < Config.memSize → exec i s = .next (goTo (s.pcNat + 4) s)) ∧
    (¬c → s.pcNat + 2 < Config.memSize → exec i s = .next (goTo (s.pcNat + 2) s))

/-- The illegal words of R101's table. -/
def Illegal (w : Word) : Prop :=
  let a := w.toNat / 0x1000
  let n := w.toNat % 0x10
  let nn := w.toNat % 0x100
  (a = 0x5 ∧ n ≠ 0) ∨ (a = 0x8 ∧ n ∈ [0x8, 0x9, 0xA, 0xB, 0xC, 0xD, 0xF]) ∨ (a = 0x9 ∧ n ≠ 0) ∨
    (a = 0xE ∧ nn ∉ [0x9E, 0xA1]) ∨
    (a = 0xF ∧ nn ∉ [0x07, 0x0A, 0x15, 0x18, 0x1E, 0x29, 0x33, 0x55, 0x65])

/-- The word of the pattern `axnn`, `anyn`, ... written as a number from its fields (R91). -/
def word (a x y n : Nat) : Word := BitVec.ofNat 16 (a * 0x1000 + x * 0x100 + y * 0x10 + n)

/-- The engine is about to execute: running, both images loaded, and the host calls `step` next (R96). -/
def Ready (s : State) : Prop :=
  s.status = .running ∧ s.mem.fontLoaded = true ∧ s.mem.programLoaded = true ∧ s.schedule = []

/-- Pixel `(px, py)` is one that a sprite of `n` rows at `I`, drawn at `(Vx, Vy)`, toggles (R211, R212). -/
def InSprite (s : State) (x y : RegIdx) (n : Nat) (px : Fin Config.dispW) (py : Fin Config.dispH) : Prop :=
  ∃ r < n, ∃ j < 8, (s.mem.read (s.indexNat + r)).getLsbD (7 - j) = true ∧
    px.val = ((s.getV x).toNat % Config.dispW + j) % Config.dispW ∧
    py.val = ((s.getV y).toNat % Config.dispH + r) % Config.dispH

/-- Key `k` completes a wait (R236). -/
def Qualifies (mode : Config.KeyWaitMode) (s : State) (k : RegIdx) : Prop :=
  match mode with
  | .edge => s.keys.pressed k = true ∧ s.ksnap.pressed k = false
  | .level => s.keys.pressed k = true

/-- The step at `s` raised no fault. -/
def NoFault (t : State) : Prop := ∀ e, t.result ≠ .faulted e

end Sys2Proof.Spec

open Sys2Proof Sys2Proof.Machine Sys2Proof.Spec

/-! ### Encoding -/

/-- Sanity, from the vectors of 95_test_vectors.md: words read as the instructions they stand for. -/
def Obligations.SpecWordsDecode : Prop :=
  decode [0x12#8, 0x34#8] = .instr (.jp 0x234#12) [] ∧ decode [0x00#8, 0xEE#8] = .instr .ret [] ∧
    decode [0x00#8, 0xE0#8] = .instr .cls [] ∧ decode [0x01#8, 0x23#8] = .instr (.exit 0x123#12) [] ∧
    decode [0x80#8, 0x14#8] = .instr (.addReg 0x0#4 0x1#4) [] ∧ decode [0xF1#8, 0x55#8] = .instr (.stRegs 0x1#4) [] ∧
    decode [0xD0#8, 0x12#8] = .instr (.drw 0x0#4 0x1#4 0x2#4) [] ∧ decode [0xE4#8, 0x9E#8] = .instr (.skp 0x4#4) [] ∧
    decode [0xF3#8, 0x0A#8] = .instr (.ldVxK 0x3#4) [] ∧ decode [0x50#8, 0x01#8] = .illegal 0x5001#16

/-- R99: every pattern decodes to its instruction at every value of its fields, and `Decode` answers `none` exactly on
the words that match no pattern. -/
def Obligations.PatternsDecodeToTheirInstructions : Prop :=
  (decodeWord 0x00E0#16 = some .cls ∧ decodeWord 0x00EE#16 = some .ret ∧
    ∀ nnn : Addr12, nnn ≠ 0x0E0#12 → nnn ≠ 0x0EE#12 → decodeWord (word 0x0 0 0 nnn.toNat) = some (.exit nnn)) ∧
  (∀ nnn : Addr12, decodeWord (word 0x1 0 0 nnn.toNat) = some (.jp nnn) ∧
    decodeWord (word 0x2 0 0 nnn.toNat) = some (.call nnn) ∧ decodeWord (word 0xA 0 0 nnn.toNat) = some (.ldI nnn) ∧
    decodeWord (word 0xB 0 0 nnn.toNat) = some (.jpV0 nnn)) ∧
  (∀ (x : RegIdx) (nn : Byte), decodeWord (word 0x3 x.toNat 0 nn.toNat) = some (.seImm x nn) ∧
    decodeWord (word 0x4 x.toNat 0 nn.toNat) = some (.sneImm x nn) ∧
    decodeWord (word 0x6 x.toNat 0 nn.toNat) = some (.ldImm x nn) ∧
    decodeWord (word 0x7 x.toNat 0 nn.toNat) = some (.addImm x nn) ∧
    decodeWord (word 0xC x.toNat 0 nn.toNat) = some (.rnd x nn)) ∧
  (∀ x y : RegIdx, decodeWord (word 0x5 x.toNat y.toNat 0x0) = some (.seReg x y) ∧
    decodeWord (word 0x9 x.toNat y.toNat 0x0) = some (.sneReg x y) ∧
    decodeWord (word 0x8 x.toNat y.toNat 0x0) = some (.ldReg x y) ∧
    decodeWord (word 0x8 x.toNat y.toNat 0x1) = some (.or x y) ∧
    decodeWord (word 0x8 x.toNat y.toNat 0x2) = some (.and x y) ∧
    decodeWord (word 0x8 x.toNat y.toNat 0x3) = some (.xor x y) ∧
    decodeWord (word 0x8 x.toNat y.toNat 0x4) = some (.addReg x y) ∧
    decodeWord (word 0x8 x.toNat y.toNat 0x5) = some (.sub x y) ∧
    decodeWord (word 0x8 x.toNat y.toNat 0x6) = some (.shr x y) ∧
    decodeWord (word 0x8 x.toNat y.toNat 0x7) = some (.subn x y) ∧
    decodeWord (word 0x8 x.toNat y.toNat 0xE) = some (.shl x y)) ∧
  (∀ x y n : BitVec 4, decodeWord (word 0xD x.toNat y.toNat n.toNat) = some (.drw x y n)) ∧
  (∀ x : RegIdx, decodeWord (word 0xE x.toNat 0x9 0xE) = some (.skp x) ∧
    decodeWord (word 0xE x.toNat 0xA 0x1) = some (.sknp x) ∧
    decodeWord (word 0xF x.toNat 0x0 0x7) = some (.ldVxDt x) ∧ decodeWord (word 0xF x.toNat 0x0 0xA) = some (.ldVxK x) ∧
    decodeWord (word 0xF x.toNat 0x1 0x5) = some (.ldDtVx x) ∧ decodeWord (word 0xF x.toNat 0x1 0x8) = some (.ldStVx x) ∧
    decodeWord (word 0xF x.toNat 0x1 0xE) = some (.addI x) ∧ decodeWord (word 0xF x.toNat 0x2 0x9) = some (.ldF x) ∧
    decodeWord (word 0xF x.toNat 0x3 0x3) = some (.ldB x) ∧ decodeWord (word 0xF x.toNat 0x5 0x5) = some (.stRegs x) ∧
    decodeWord (word 0xF x.toNat 0x6 0x5) = some (.ldRegs x)) ∧
  (∀ w : Word, decodeWord w = none ↔ Illegal w)

/-- Decoding the two bytes of any well-formed instruction gives it back, with whatever follows. The byte order is the
spec's own choice D1 (R65). -/
def Obligations.DecodeOfEncodedInstruction : Prop :=
  ∀ (i : Instr) (rest : List Byte), i.wellFormed = true → decode (encodeBytes i ++ rest) = .instr i rest

/-- Every word that decodes is the word of the instruction it decodes to, which is well-formed: no bit is dropped, and no
two words are one instruction. -/
def Obligations.EncodeOfDecodedWord : Prop :=
  ∀ (w : Word) (i : Instr), decodeWord w = some i → encode i = w ∧ i.wellFormed = true

/-! ### The step -/

/-- R93: the fetched word is big-endian (the spec's own choice D1), and a fetch that reaches the end of memory raises
`OutOfBounds` before decoding, with no opcode recorded (D4, D15), at a pc past memory too (log 10). The second
clause is about an empty schedule (log 3). -/
def Obligations.FetchIsBigEndianAndBounded : Prop :=
  (∀ s : State, s.pcNat + 1 < Config.memSize →
    ∃ w : Word, fetchWord s = .ok w ∧ w.toNat = (s.mem.read s.pcNat).toNat * 256 + (s.mem.read (s.pcNat + 1)).toNat) ∧
  (∀ s : State, Ready s → Config.memSize ≤ s.pcNat + 1 →
    step s = .next (faultedWith (.outOfBounds s.pc none (max s.pcNat Config.memSize)) s))

/-- A step runs the decoded instruction (R96). That an empty schedule means the host calls `step`, and that a written-down
call is the head of the schedule, is the model's choice (log 3); that the word is read from the two bytes big-endian is the
spec's own choice D1 (R65, R93; log 5). -/
def Obligations.StepRunsDecodedInstruction : Prop :=
  ∀ (s : State) (i : Instr), s.status = .running → s.mem.fontLoaded = true → s.mem.programLoaded = true →
    s.pcNat + 1 < Config.memSize → decode [s.mem.read s.pcNat, s.mem.read (s.pcNat + 1)] = .instr i [] →
    (s.schedule = [] → step s = exec i s) ∧
      (∀ rest, s.schedule = .step :: rest → step s = exec i { s with schedule := rest })

/-- R101: an illegal word under the pc raises `InvalidOpcode` with the pc and the raw word, and nothing else changes
(R251). That the word is read big-endian is the spec's own choice D1 (R65, R93; log 5); the step is that of an
empty schedule (log 3). -/
def Obligations.IllegalWordRaisesInvalidOpcode : Prop :=
  ∀ (s : State) (w : Word), Ready s → s.pcNat + 1 < Config.memSize →
    wordOfBytes (s.mem.read s.pcNat) (s.mem.read (s.pcNat + 1)) = w → Illegal w →
    step s = .next (faultedWith (.invalidOpcode s.pc w) s)

/-- R252 (the spec's own choice D13): while faulted, every step returns the same fault and changes nothing but the result
of the call, which is the model's field (log 1, log 2); the other calls are accepted and leave the status; only reset and
construction clear it. -/
def Obligations.FaultIsStickyUntilReset : Prop :=
  ∀ (s : State) (e : Fault), s.status = .faulted e →
    (s.schedule = [] → step s = .next { s with result := .faulted e }) ∧
    (∀ rest, s.schedule = .step :: rest → step s = .next { s with schedule := rest, result := .faulted e }) ∧
    (∀ c : HostCall, c ≠ .step → ∃ t, hostCall c s = .next t ∧
      (c = .reset ∨ c = .construct → t.status = .running) ∧ (c ≠ .reset → c ≠ .construct → t.status = .faulted e))

/-- R253 (the spec's own choices D13, D14): before both images are loaded a step returns `NoProgramLoaded` and changes
nothing, the status included, waiting for a key or not; the host's coming calls are made, so it may load the missing image
and step again. What the call returned is the model's field (log 1, log 2). -/
def Obligations.GateRefusesUntilBothImagesLoaded : Prop :=
  ∀ s : State, (∀ e, s.status ≠ .faulted e) → (s.mem.fontLoaded = false ∨ s.mem.programLoaded = false) →
    (s.schedule = [] → step s = .next { s with result := .faulted .noProgramLoaded }) ∧
    (∀ rest, s.schedule = .step :: rest →
      step s = .next { s with schedule := rest, result := .faulted .noProgramLoaded })

/-- R70: what the two predicates say of memory. -/
def Obligations.LoadedPredicatesReadMemory : Prop :=
  ∀ m : Memory, (m.programLoaded = true ↔ ∃ a, 0x200 ≤ a ∧ a < Config.memSize ∧ m.read a ≠ 0) ∧
    (m.fontLoaded = true ↔ ∃ a, a < 0x200 ∧ m.read a ≠ 0)

/-- R251: a step that raises a fault leaves exactly the state before it, but for the status and the returned result. The
gate's `NoProgramLoaded`, which is returned and not raised, leaves the status too (GateRefusesUntilBothImagesLoaded); no
instruction raises it. The returned result is the model's field (log 1, log 2). -/
def Obligations.RaisedFaultIsPrecise : Prop :=
  ∀ (s t : State) (e : Fault), t.result = .faulted e →
    (engineStep s = .next t → e ≠ .noProgramLoaded → t = faultedWith e s) ∧
    (∀ i, exec i s = .next t → t = faultedWith e s ∧ e ≠ .noProgramLoaded)

/-- R94: every instruction answers a next state, in every state: `Continue`, the exit trap's `Halt`, or a taken fault. No
instruction is refused, and ordinary data never ends a run. -/
def Obligations.EveryInstructionAnswersNext : Prop :=
  ∀ (i : Instr) (s : State), ∃ t, exec i s = .next t ∧
    (t.result = .continued ∨ (∃ nnn, i = .exit nnn ∧ t.result = .halted nnn) ∨
      ∃ e, t.status = .faulted e ∧ t.result = .faulted e)

/-- R97 (the spec's own choice D2): an instruction that leaves `npc = pc + 2`, at a pc from which that is past the end,
raises `OutOfBounds(pc + 2)` and commits nothing. The range-checked ones are stated where their own check passes. -/
def Obligations.SequentialAdvancePastTheEndFaults : Prop :=
  ∀ (s : State) (x y : RegIdx) (nn : Byte) (nnn : Addr12) (n : BitVec 4), Config.memSize ≤ s.pcNat + 2 →
    (∀ i ∈ [Instr.cls, .exit nnn, .ldImm x nn, .addImm x nn, .ldReg x y, .or x y, .and x y, .xor x y, .addReg x y,
        .sub x y, .shr x y, .subn x y, .shl x y, .ldI nnn, .rnd x nn, .ldVxDt x, .ldDtVx x, .ldStVx x, .addI x],
      exec i s = .next (faultedWith (outOfBounds i s (s.pcNat + 2)) s)) ∧
    ((s.getV x).toNat ≤ 0xF → exec (.ldF x) s = .next (faultedWith (outOfBounds (.ldF x) s (s.pcNat + 2)) s)) ∧
    (s.indexNat + 3 ≤ Config.memSize → exec (.ldB x) s = .next (faultedWith (outOfBounds (.ldB x) s (s.pcNat + 2)) s)) ∧
    (s.indexNat + (x.toNat + 1) ≤ Config.memSize →
      exec (.stRegs x) s = .next (faultedWith (outOfBounds (.stRegs x) s (s.pcNat + 2)) s) ∧
      exec (.ldRegs x) s = .next (faultedWith (outOfBounds (.ldRegs x) s (s.pcNat + 2)) s)) ∧
    (n = 0 ∨ s.indexNat + n.toNat ≤ Config.memSize →
      exec (.drw x y n) s = .next (faultedWith (outOfBounds (.drw x y n) s (s.pcNat + 2)) s))

/-- R97 (D2): a taken or untaken skip past the end raises `OutOfBounds` with the next pc it formed. -/
def Obligations.SkipPastTheEndFaults : Prop :=
  ∀ (s : State) (x y : RegIdx) (nn : Byte) (i : Instr) (c : Bool),
    (i = .seImm x nn ∧ c = (s.getV x == nn)) ∨ (i = .sneImm x nn ∧ c = (s.getV x != nn)) ∨
      (i = .seReg x y ∧ c = (s.getV x == s.getV y)) ∨ (i = .sneReg x y ∧ c = (s.getV x != s.getV y)) ∨
      (i = .skp x ∧ (s.getV x).toNat ≤ 0xF ∧ c = s.keys.pressed ((s.getV x).setWidth 4)) ∨
      (i = .sknp x ∧ (s.getV x).toNat ≤ 0xF ∧ c = !s.keys.pressed ((s.getV x).setWidth 4)) →
    (c = true → Config.memSize ≤ s.pcNat + 4 → exec i s = .next (faultedWith (outOfBounds i s (s.pcNat + 4)) s)) ∧
    (c = false → Config.memSize ≤ s.pcNat + 2 → exec i s = .next (faultedWith (outOfBounds i s (s.pcNat + 2)) s))

/-! ### Control flow -/

/-- R131: RET pops the return address into the pc, not advanced further; `StackUnderflow` on an empty stack; a popped
address past memory faults (R97, D2). -/
def Obligations.ReturnPopsTheSavedAddress : Prop :=
  ∀ s : State,
    (∀ k : Fin Config.stackDepth, s.sp.val = k.val + 1 →
      ((s.stack.get k).toNat < Config.memSize → ∃ t, exec .ret s = .next t ∧ t.sp.val = k.val ∧
        t = goTo (s.stack.get k).toNat { s with sp := t.sp }) ∧
      (Config.memSize ≤ (s.stack.get k).toNat →
        exec .ret s = .next (faultedWith (outOfBounds .ret s (s.stack.get k).toNat) s))) ∧
    (s.sp.val = 0 → exec .ret s = .next (faultedWith (.stackUnderflow s.pc 0x00EE#16) s))

/-- R134: CALL pushes `pc + 2` and jumps; `StackOverflow`, with stack and pc unchanged, when the stack holds 16 entries.
The payload of the fault is the spec's own choice D15 (R250); that an instruction reports its own word is log 9, and the
16 bits of the pushed sum are log 11. -/
def Obligations.CallPushesTheNextAddress : Prop :=
  ∀ (s : State) (nnn : Addr12),
    (s.sp.val < Config.stackDepth → ∃ t, exec (.call nnn) s = .next t ∧ t.sp.val = s.sp.val + 1 ∧
      (∀ k : Fin Config.stackDepth,
        t.stack.get k = if k.val = s.sp.val then BitVec.ofNat 16 (s.pcNat + 2) else s.stack.get k) ∧
      t = goTo nnn.toNat { s with stack := t.stack, sp := t.sp }) ∧
    (s.sp.val = Config.stackDepth →
      exec (.call nnn) s = .next (faultedWith (.stackOverflow s.pc (word 0x2 0 0 nnn.toNat)) s))

/-- A call and the return at its target come back behind the call, with the stack pointer as it was (C1 of
90_conflicts.md reads the source's own property so). -/
def Obligations.CallThenReturnComesBack : Prop :=
  ∀ (s : State) (nnn : Addr12), s.sp.val < Config.stackDepth → s.pcNat + 2 < Config.memSize →
    ∃ t u, exec (.call nnn) s = .next t ∧ exec .ret t = .next u ∧ u = plusTwo s { s with stack := u.stack } ∧
      ∀ k : Fin Config.stackDepth, k.val ≠ s.sp.val → u.stack.get k = s.stack.get k

/-- R132: the exit trap returns `Halt(nnn)`; the pc moves past it and the status stays (the spec's own choice D12). -/
def Obligations.ExitTrapHaltsWithItsValue : Prop :=
  ∀ (s : State) (nnn : Addr12), s.pcNat + 2 < Config.memSize →
    exec (.exit nnn) s = .next { s with pc := BitVec.ofNat 16 (s.pcNat + 2), result := .halted nnn }

/-- R133: JP goes to `nnn`, in every state. -/
def Obligations.JumpGoesToItsTarget : Prop :=
  ∀ (s : State) (nnn : Addr12), exec (.jp nnn) s = .next (goTo nnn.toNat s)

/-- R139: JP V0 goes to the unwrapped sum; a sum past memory faults (the spec's own choice D2). -/
def Obligations.ComputedJumpAddsV0 : Prop :=
  ∀ (s : State) (nnn : Addr12),
    (nnn.toNat + (s.getV 0x0#4).toNat < Config.memSize →
      exec (.jpV0 nnn) s = .next (goTo (nnn.toNat + (s.getV 0x0#4).toNat) s)) ∧
    (Config.memSize ≤ nnn.toNat + (s.getV 0x0#4).toNat →
      exec (.jpV0 nnn) s = .next (faultedWith (outOfBounds (.jpV0 nnn) s (nnn.toNat + (s.getV 0x0#4).toNat)) s))

/-- R135 to R138: the compares skip exactly when their condition holds. -/
def Obligations.ComparesSkipOnTheirCondition : Prop :=
  ∀ (s : State) (x y : RegIdx) (nn : Byte), SkipsWhen (.seImm x nn) s (s.getV x = nn) ∧
    SkipsWhen (.sneImm x nn) s (s.getV x ≠ nn) ∧ SkipsWhen (.seReg x y) s (s.getV x = s.getV y) ∧
    SkipsWhen (.sneReg x y) s (s.getV x ≠ s.getV y)

/-! ### Register loads and arithmetic -/

/-- R162, R163: the immediate load, and the wrapping immediate add that leaves VF. -/
def Obligations.ImmediateLoadAndAdd : Prop :=
  ∀ (s : State) (x : RegIdx) (nn : Byte), s.pcNat + 2 < Config.memSize →
    CompletesWithRegs (.ldImm x nn) s (fun r => if r = x then nn else s.getV r) ∧
    CompletesWithRegs (.addImm x nn) s
      (fun r => if r = x then BitVec.ofNat 8 ((s.getV x).toNat + nn.toNat) else s.getV r)

/-- R164 to R168: copy, OR, AND, XOR write `Vx` only; no flag. -/
def Obligations.CopyAndLogicWriteOneRegister : Prop :=
  ∀ (s : State) (x y : RegIdx), s.pcNat + 2 < Config.memSize →
    CompletesWithRegs (.ldReg x y) s (fun r => if r = x then s.getV y else s.getV r) ∧
    CompletesWithRegs (.or x y) s (fun r => if r = x then s.getV x ||| s.getV y else s.getV r) ∧
    CompletesWithRegs (.and x y) s (fun r => if r = x then s.getV x &&& s.getV y else s.getV r) ∧
    CompletesWithRegs (.xor x y) s (fun r => if r = x then s.getV x ^^^ s.getV y else s.getV r)

/-- R170: the sum modulo 256 in `Vx`, then the carry in VF; VF as destination keeps the carry. -/
def Obligations.AddSetsCarry : Prop :=
  ∀ (s : State) (x y : RegIdx), s.pcNat + 2 < Config.memSize →
    CompletesWithRegs (.addReg x y) s (fun r =>
      if r = regF then (if (s.getV x).toNat + (s.getV y).toNat > 255 then 1 else 0)
      else if r = x then BitVec.ofNat 8 ((s.getV x).toNat + (s.getV y).toNat) else s.getV r)

/-- R171, R173: the difference modulo 256 in `Vx`, then the not-borrow in VF, equal operands giving 1. -/
def Obligations.SubtractSetsNotBorrow : Prop :=
  ∀ (s : State) (x y : RegIdx), s.pcNat + 2 < Config.memSize →
    CompletesWithRegs (.sub x y) s (fun r =>
      if r = regF then (if (s.getV x).toNat ≥ (s.getV y).toNat then 1 else 0)
      else if r = x then BitVec.ofNat 8 (256 + (s.getV x).toNat - (s.getV y).toNat) else s.getV r) ∧
    CompletesWithRegs (.subn x y) s (fun r =>
      if r = regF then (if (s.getV y).toNat ≥ (s.getV x).toNat then 1 else 0)
      else if r = x then BitVec.ofNat 8 (256 + (s.getV y).toNat - (s.getV x).toNat) else s.getV r)

/-- R172, R174, R103: the shifts by one, the bit shifted out in VF, `y` ignored. With `x = F` the default reading
`sequential` of VF_ALIAS, the spec's own choice D10 (log 7). -/
def Obligations.ShiftsMoveOutOneBit : Prop :=
  ∀ (s : State) (x y : RegIdx), s.pcNat + 2 < Config.memSize →
    CompletesWithRegs (.shr x y) s (fun r =>
      if r = regF then (if x = regF then 0 else BitVec.ofNat 8 ((s.getV x).toNat % 2))
      else if r = x then BitVec.ofNat 8 ((s.getV x).toNat / 2) else s.getV r) ∧
    CompletesWithRegs (.shl x y) s (fun r =>
      if r = regF then (if x = regF then BitVec.ofNat 8 (2 * ((s.getV x).toNat / 128))
        else BitVec.ofNat 8 ((s.getV x).toNat / 128))
      else if r = x then BitVec.ofNat 8 (2 * (s.getV x).toNat) else s.getV r)

/-- The table of R161: VF after a shift of VF itself, in each reading of the open parameter VF_ALIAS (D10, log 7). -/
def Obligations.ShiftOfVfInEachReading : Prop :=
  ∀ (s : State) (mode : Config.VfAlias),
    ((s.setShift mode regF lowBit (· >>> 1)).getV regF).toNat =
      (match mode with
        | .sequential => 0
        | .operandsFirst => (s.getV regF).toNat / 2
        | .flagLast => (s.getV regF).toNat % 2) ∧
    ((s.setShift mode regF highBit (· <<< 1)).getV regF).toNat =
      (match mode with
        | .sequential => 2 * ((s.getV regF).toNat / 128)
        | .operandsFirst => 2 * (s.getV regF).toNat % 256
        | .flagLast => (s.getV regF).toNat / 128)

/-- R175: RND loads a drawn byte AND `nn`, whatever byte the environment draws (the free value of log 4); one draw is
taken. -/
def Obligations.RandomByteIsMasked : Prop :=
  ∀ (s : State) (x : RegIdx) (nn : Byte), s.pcNat + 2 < Config.memSize →
    ∃ (b : Byte) (v' : Vector Byte Config.numV), b = Config.randomByte s.draws ∧
      RegsAre v' (fun r => if r = x then b &&& nn else s.getV r) ∧
      exec (.rnd x nn) s = .next (plusTwo s { s with v := v', draws := s.draws + 1 })

/-! ### Index register and memory -/

/-- R190, R191: I loaded with an address, and advanced by a register modulo 2^16 without a flag (the width and the absent
flag of Fx1E are the spec's own choice D5). -/
def Obligations.IndexLoadAndAdd : Prop :=
  ∀ (s : State) (x : RegIdx) (nnn : Addr12), s.pcNat + 2 < Config.memSize →
    exec (.ldI nnn) s = .next (plusTwo s { s with index := BitVec.ofNat 16 nnn.toNat }) ∧
    exec (.addI x) s = .next (plusTwo s { s with index := BitVec.ofNat 16 (s.index.toNat + (s.getV x).toNat) })

/-- R192: I at the glyph of the digit; a value above 0xF raises `OperandOutOfRange` (stride and fault are the spec's own
choice D6). -/
def Obligations.GlyphAddressOfDigit : Prop :=
  ∀ (s : State) (x : RegIdx),
    ((s.getV x).toNat ≤ 0xF → s.pcNat + 2 < Config.memSize →
      exec (.ldF x) s = .next (plusTwo s
        { s with index := BitVec.ofNat 16 (Config.fontBase + Config.fontStride * (s.getV x).toNat) })) ∧
    (0xF < (s.getV x).toNat →
      exec (.ldF x) s = .next (faultedWith (.operandOutOfRange s.pc (encode (.ldF x)) (s.getV x)) s))

/-- R193: the decimal digits of `Vx` at I, I+1, I+2, every other byte as it was, and nothing else but the pc; a block that
passes the end of memory faults before any byte is written. The payload of the fault is the spec's own choice D15 (R250);
that an instruction reports its own word is log 9. -/
def Obligations.DecimalDigitsAreStored : Prop :=
  ∀ (s : State) (x : RegIdx),
    (s.mem.wf = true → s.indexNat + 3 ≤ Config.memSize → s.pcNat + 2 < Config.memSize →
      ∃ m' : Memory, exec (.ldB x) s = .next (plusTwo s { s with mem := m' }) ∧
        ∀ a, m'.read a =
          if a = s.indexNat then BitVec.ofNat 8 ((s.getV x).toNat / 100)
          else if a = s.indexNat + 1 then BitVec.ofNat 8 ((s.getV x).toNat / 10 % 10)
          else if a = s.indexNat + 2 then BitVec.ofNat 8 ((s.getV x).toNat % 10)
          else s.mem.read a) ∧
    (Config.memSize < s.indexNat + 3 →
      exec (.ldB x) s = .next (faultedWith
        (.outOfBounds s.pc (some (word 0xF x.toNat 0x3 0x3)) (max s.indexNat Config.memSize)) s))

/-- R194: `V0 .. Vx` at I onwards, every other byte as it was; I unchanged (the spec's own choice D11). -/
def Obligations.RegistersAreStored : Prop :=
  ∀ (s : State) (x : RegIdx), s.mem.wf = true → s.indexNat + (x.toNat + 1) ≤ Config.memSize →
    s.pcNat + 2 < Config.memSize →
    ∃ m' : Memory, exec (.stRegs x) s = .next (plusTwo s { s with mem := m' }) ∧
      (∀ r : RegIdx, r.toNat ≤ x.toNat → m'.read (s.indexNat + r.toNat) = s.getV r) ∧
      (∀ a, a < s.indexNat ∨ s.indexNat + x.toNat < a → m'.read a = s.mem.read a)

/-- R195: `V0 .. Vx` loaded from I onwards, the registers above as they were; I unchanged (D11). -/
def Obligations.RegistersAreLoaded : Prop :=
  ∀ (s : State) (x : RegIdx), s.indexNat + (x.toNat + 1) ≤ Config.memSize → s.pcNat + 2 < Config.memSize →
    CompletesWithRegs (.ldRegs x) s
      (fun r => if r.toNat ≤ x.toNat then s.mem.read (s.indexNat + r.toNat) else s.getV r)

/-- R64: an access that passes the end of memory faults before any byte, register or pixel changes, with the lowest
address at or above MEM_SIZE, at any pc (R254 puts it before the next-pc check). -/
def Obligations.RangeFaultComesBeforeAnyWrite : Prop :=
  ∀ (s : State) (x y : RegIdx) (n : BitVec 4),
    (Config.memSize < s.indexNat + 3 →
      exec (.ldB x) s = .next (faultedWith (outOfBounds (.ldB x) s (max s.indexNat Config.memSize)) s)) ∧
    (Config.memSize < s.indexNat + (x.toNat + 1) →
      exec (.stRegs x) s = .next (faultedWith (outOfBounds (.stRegs x) s (max s.indexNat Config.memSize)) s) ∧
      exec (.ldRegs x) s = .next (faultedWith (outOfBounds (.ldRegs x) s (max s.indexNat Config.memSize)) s)) ∧
    (n ≠ 0 → Config.memSize < s.indexNat + n.toNat →
      exec (.drw x y n) s = .next (faultedWith (outOfBounds (.drw x y n) s (max s.indexNat Config.memSize)) s))

/-- The source's round trip (R195): a store, then a load of the same block from any state in which I and the block's bytes
are as the store left them, gives the stored registers back. -/
def Obligations.StoreThenLoadRestoresRegisters : Prop :=
  ∀ (s : State) (x : RegIdx), s.mem.wf = true → s.indexNat + (x.toNat + 1) ≤ Config.memSize →
    s.pcNat + 2 < Config.memSize →
    ∃ t, exec (.stRegs x) s = .next t ∧ t.index = s.index ∧
      ∀ u : State, u.index = t.index →
        (∀ a, s.indexNat ≤ a → a ≤ s.indexNat + x.toNat → u.mem.read a = t.mem.read a) →
        u.pcNat + 2 < Config.memSize →
        ∃ w, exec (.ldRegs x) u = .next w ∧ w.index = s.index ∧ ∀ r : RegIdx, r.toNat ≤ x.toNat → w.getV r = s.getV r

/-- R63: a write changes its byte and nothing else, and keeps the canonical form. -/
def Obligations.WriteChangesOneByte : Prop :=
  ∀ (m : Memory) (a : Nat) (b : Byte), m.wf = true → a < Config.memSize →
    (m.write a b).wf = true ∧ (m.write a b).read a = b ∧ ∀ x, x ≠ a → (m.write a b).read x = m.read x

/-- The canonical form is canonical: memories that read alike are equal data. -/
def Obligations.EqualReadsMakeEqualMemories : Prop :=
  ∀ m m' : Memory, m.wf = true → m'.wf = true → (∀ a, a < Config.memSize → m.read a = m'.read a) → m = m'

/-- R76 (the spec's own choice D24): the bytes that Fx55 stores (R194) with I at the next pc are what the next fetch reads,
the first as the high byte (the spec's own choice D1, R65 and R93). -/
def Obligations.StoredBytesAreFetchedNext : Prop :=
  ∀ (s : State) (x : RegIdx), s.mem.wf = true → 1 ≤ x.toNat → s.indexNat = s.pcNat + 2 →
    s.indexNat + (x.toNat + 1) ≤ Config.memSize →
    ∃ t, exec (.stRegs x) s = .next t ∧ fetchWord t = .ok (wordOfBytes (s.getV 0x0#4) (s.getV 0x1#4))

/-! ### Display -/

/-- R210: CLS makes every pixel false and changes nothing else. -/
def Obligations.ClearMakesEveryPixelFalse : Prop :=
  ∀ s : State, s.pcNat + 2 < Config.memSize →
    ∃ d' : Display, exec .cls s = .next (plusTwo s { s with disp := d' }) ∧ ∀ px py, d'.pixel px py = false

/-- R211 to R213: DRW inverts exactly the sprite's pixels, wrapped on both axes, sets VF to 1 exactly when one of them was
set before, and changes nothing else. Bit order, wrap and `n = 0` are the spec's own choice D9. -/
def Obligations.DrawInvertsTheSpritePixels : Prop :=
  ∀ (s : State) (x y : RegIdx) (n : BitVec 4), n = 0 ∨ s.indexNat + n.toNat ≤ Config.memSize →
    s.pcNat + 2 < Config.memSize →
    ∃ (d' : Display) (v' : Vector Byte Config.numV) (flag : Byte),
      exec (.drw x y n) s = .next (plusTwo s { s with v := v', disp := d' }) ∧
      (∀ px py, InSprite s x y n.toNat px py → d'.pixel px py = !s.disp.pixel px py) ∧
      (∀ px py, ¬InSprite s x y n.toNat px py → d'.pixel px py = s.disp.pixel px py) ∧
      RegsAre v' (fun r => if r = regF then flag else s.getV r) ∧
      ((∃ px py, InSprite s x y n.toNat px py ∧ s.disp.pixel px py = true) → flag = 1) ∧
      ((¬∃ px py, InSprite s x y n.toNat px py ∧ s.disp.pixel px py = true) → flag = 0)

/-- R211, R213: a second draw of the same sprite at the same place, with the sprite's bytes, the coordinates and the buffer
unchanged between, restores the buffer, and reports a collision exactly when the first draw set some pixel; where the first
draw found the sprite's pixels clear, exactly when the sprite has a 1 bit. (R213's derived sentence leaves that premise out;
log 18.) -/
def Obligations.DrawTwiceRestoresTheDisplay : Prop :=
  ∀ (s t u : State) (x y : RegIdx) (n : BitVec 4), n = 0 ∨ s.indexNat + n.toNat ≤ Config.memSize →
    s.pcNat + 2 < Config.memSize → exec (.drw x y n) s = .next t →
    u.disp = t.disp → u.index = s.index → u.getV x = s.getV x → u.getV y = s.getV y →
    (∀ r, r < n.toNat → u.mem.read (s.indexNat + r) = s.mem.read (s.indexNat + r)) → u.pcNat + 2 < Config.memSize →
    ∃ w, exec (.drw x y n) u = .next w ∧ w.disp = s.disp ∧
      (w.getV regF = 1 ↔ ∃ px py, InSprite s x y n.toNat px py ∧ s.disp.pixel px py = false) ∧
      ((∀ px py, InSprite s x y n.toNat px py → s.disp.pixel px py = false) →
        (w.getV regF = 1 ↔ ∃ r < n.toNat, s.mem.read (s.indexNat + r) ≠ 0))

/-! ### Timers and input -/

/-- R230 to R232: the timer reads and writes; the sound-active output (R29) then follows `Vx`. -/
def Obligations.TimerTransfers : Prop :=
  ∀ (s : State) (x : RegIdx), s.pcNat + 2 < Config.memSize →
    CompletesWithRegs (.ldVxDt x) s (fun r => if r = x then s.dt else s.getV r) ∧
    exec (.ldDtVx x) s = .next (plusTwo s { s with dt := s.getV x }) ∧
    exec (.ldStVx x) s = .next (plusTwo s { s with st := s.getV x }) ∧
    (soundActive (plusTwo s { s with st := s.getV x }) = true ↔ (s.getV x).toNat ≠ 0)

/-- R233, R234: the key skips; a value above 0xF raises `OperandOutOfRange` (the spec's own choice D7), at any pc. -/
def Obligations.KeySkipsReadTheLatch : Prop :=
  ∀ (s : State) (x : RegIdx),
    (∀ k : RegIdx, (s.getV x).toNat = k.toNat → SkipsWhen (.skp x) s (s.keys.pressed k = true) ∧
      SkipsWhen (.sknp x) s (s.keys.pressed k = false)) ∧
    (0xF < (s.getV x).toNat →
      exec (.skp x) s = .next (faultedWith (.operandOutOfRange s.pc (encode (.skp x)) (s.getV x)) s) ∧
      exec (.sknp x) s = .next (faultedWith (.operandOutOfRange s.pc (encode (.sknp x)) (s.getV x)) s))

/-- R235: Fx0A only starts the wait: the status, the snapshot (the spec's own choice D8), and the pc where it was. -/
def Obligations.KeyWaitStarts : Prop :=
  ∀ (s : State) (x : RegIdx), s.pcNat < Config.memSize →
    exec (.ldVxK x) s = .next { s with status := .awaitingKey x, ksnap := s.keys, result := .continued }

/-- R236, in both readings of the open parameter KEY_WAIT_MODE (D8, log 7): no qualifying key, the wait goes on; some, one
of them is taken and the engine runs again past the Fx0A; at the end of memory the completion faults (D2). -/
def Obligations.KeyWaitCheckTakesAQualifyingKey : Prop :=
  ∀ (mode : Config.KeyWaitMode) (s : State) (x : RegIdx),
    ((∀ k, ¬Qualifies mode s k) →
      keyWaitCheck mode x s = .next { s with ksnap := s.keys, result := .continued }) ∧
    ((∃ k, Qualifies mode s k) → s.pcNat + 2 < Config.memSize →
      ∃ (k : RegIdx) (v' : Vector Byte Config.numV), Qualifies mode s k ∧
        RegsAre v' (fun r => if r = x then BitVec.ofNat 8 k.toNat else s.getV r) ∧
        keyWaitCheck mode x s = .next (plusTwo s
          { s with v := v', ksnap := s.keys, status := .running, draws := s.draws + 1 })) ∧
    ((∃ k, Qualifies mode s k) → Config.memSize ≤ s.pcNat + 2 →
      keyWaitCheck mode x s = .next (faultedWith
        (.outOfBounds s.pc (some (BitVec.ofNat 16 (0xF00A + x.toNat * 0x100))) (s.pcNat + 2)) s))

/-- A step while a key wait is pending fetches nothing: it is one check of the latch, in the default reading `edge`
(the spec's own choice D8; log 7). Both clauses are about the model's schedule, its own choice (log 3). -/
def Obligations.AwaitingStepIsOneCheck : Prop :=
  ∀ (s : State) (x : RegIdx), s.status = .awaitingKey x → s.mem.fontLoaded = true → s.mem.programLoaded = true →
    (s.schedule = [] → step s = keyWaitCheck .edge x s) ∧
      (∀ rest, s.schedule = .step :: rest → step s = keyWaitCheck .edge x { s with schedule := rest })

/-! ### The host -/

/-- R270: a tick counts each non-zero timer down by one and changes nothing else, in every status. -/
def Obligations.TickCountsTimersDown : Prop :=
  ∀ (s : State) (rest : List HostCall), s.schedule = .tick :: rest →
    ∃ t, step s = .next t ∧ t.dt.toNat = s.dt.toNat - 1 ∧ t.st.toNat = s.st.toNat - 1 ∧
      t = { s with dt := t.dt, st := t.st, schedule := rest, result := .noValue }

/-- R276, "The host replaces the input latch with 16 booleans" and "The core never writes the latch": a key write changes
the latch and nothing else, and the core's own step, whatever it does, never changes it. That the write is the head of the
schedule is the model's choice (log 3), and so is the result of the call (log 2). -/
def Obligations.KeyWriteReplacesTheLatch : Prop :=
  (∀ (s : State) (ks : KeySet) (rest : List HostCall), s.schedule = .writeKeys ks :: rest →
    step s = .next { s with keys := ks, schedule := rest, result := .noValue }) ∧
  (∀ s t : State, engineStep s = .next t → t.keys = s.keys)

/-- R71: a load copies its bytes and changes no other byte; past the end of memory it is refused and changes nothing (the
spec's own choice D28) but the result of the call, which is the model's field (log 2). -/
def Obligations.LoadCopiesBytesOrIsRefused : Prop :=
  ∀ (s : State) (offset : Nat) (bytes : List Byte), s.mem.wf = true →
    (offset + bytes.length ≤ Config.memSize → ∃ m' : Memory,
      hostCall (.load offset bytes) s = .next { s with mem := m', result := .noValue } ∧
      (∀ k, k < bytes.length → bytes[k]? = some (m'.read (offset + k))) ∧
      (∀ a, a < offset ∨ offset + bytes.length ≤ a → m'.read a = s.mem.read a)) ∧
    (Config.memSize < offset + bytes.length →
      hostCall (.load offset bytes) s = .next { s with result := .loadOutOfBounds })

/-- R292 (the spec's own choice D19): a program load is the load at 0x200 with the pc set to 0x200, a font load is the load
at 0x000. A program load past the end of memory is refused whole, the pc included (log 13); that its answer stands
in `result` is the model's choice (log 2). -/
def Obligations.ImageLoadsAreLoadsAtTheirBase : Prop :=
  ∀ (s : State) (bytes : List Byte),
    (∀ t, 0x200 + bytes.length ≤ Config.memSize → hostCall (.load 0x200 bytes) s = .next t →
      hostCall (.loadProgram bytes) s = .next { t with pc := 0x200#16 }) ∧
    (Config.memSize < 0x200 + bytes.length →
      hostCall (.loadProgram bytes) s = .next { s with result := .loadOutOfBounds }) ∧
    hostCall (.loadFont bytes) s = hostCall (.load 0x000 bytes) s

/-- R290, R291: what reset and construction leave. Reset keeps the input latch it finds; construction clears it. The
values of I, pc, latch, snapshot and status are the spec's own choice D18, the stack entries' D27. -/
def Obligations.ResetLeavesTheResetValues : Prop :=
  ∀ s : State, ∃ t u, hostCall .reset s = .next t ∧ hostCall .construct s = .next u ∧
    t.keys = s.keys ∧ (∀ k, u.keys.pressed k = false) ∧
    ∀ w ∈ [t, u, State.reset], (∀ a, w.mem.read a = 0) ∧ (∀ r, w.getV r = 0) ∧ w.index = 0 ∧ w.pc = 0x200#16 ∧
      w.sp.val = 0 ∧ (∀ k, w.stack.get k = 0) ∧ w.dt = 0 ∧ w.st = 0 ∧ (∀ px py, w.disp.pixel px py = false) ∧
      (∀ k, w.ksnap.pressed k = false) ∧ w.status = .running

/-- R279, R280: a run ends where a step returns `Halt` or `Fault`, in the state that step leaves, and goes on through a
step that returns neither; the `Fault` of a faulted or an unloaded engine ends it in an unchanged state (but for the result
of the call, log 2; the schedule is log 3). -/
def Obligations.RunEndsAtHaltOrFault : Prop :=
  ∀ (s : State) (fuel : Nat),
    (∀ t, step s = .next t →
      (∀ v, t.result = .halted v → runToHalt (fuel + 1) s = .halted v t) ∧
      (∀ e, t.result = .faulted e → runToHalt (fuel + 1) s = .faulted e t) ∧
      (t.result = .continued → runToHalt (fuel + 1) s = runToHalt fuel t)) ∧
    (∀ e, s.status = .faulted e → s.schedule = [] →
      runToHalt (fuel + 1) s = .faulted e { s with result := .faulted e }) ∧
    ((∀ e, s.status ≠ .faulted e) → (s.mem.fontLoaded = false ∨ s.mem.programLoaded = false) → s.schedule = [] →
      runToHalt (fuel + 1) s = .faulted .noProgramLoaded { s with result := .faulted .noProgramLoaded })

/-! ### Whole-machine rules: which instruction may change what -/

/-- R22: VF as a flag is written by `8xy4`, `8xy5`, `8xy6`, `8xy7`, `8xyE` and `Dxyn` alone; any other instruction
changes VF only as its named destination or as the last register of a block load. -/
def Obligations.OnlyFlagWritersChangeVF : Prop :=
  ∀ (i : Instr) (s t : State), exec i s = .next t →
    (∀ x y n nn, i ≠ .addReg x y ∧ i ≠ .sub x y ∧ i ≠ .shr x y ∧ i ≠ .subn x y ∧ i ≠ .shl x y ∧ i ≠ .drw x y n ∧
      i ≠ .ldImm regF nn ∧ i ≠ .addImm regF nn ∧ i ≠ .ldReg regF y ∧ i ≠ .or regF y ∧ i ≠ .and regF y ∧
      i ≠ .xor regF y ∧ i ≠ .rnd regF nn ∧ i ≠ .ldVxDt regF ∧ i ≠ .ldRegs regF) →
    t.getV regF = s.getV regF

/-- R24: I is written by `Annn`, `Fx1E` and `Fx29`, and by nothing else. -/
def Obligations.OnlyIndexInstructionsChangeI : Prop :=
  ∀ (i : Instr) (s t : State), exec i s = .next t →
    (∀ x nnn, i ≠ .ldI nnn ∧ i ≠ .addI x ∧ i ≠ .ldF x) → t.index = s.index

/-- R27: only `2nnn` (push) and `00EE` (pop) touch the call stack; a pop leaves the entries. -/
def Obligations.OnlyCallAndReturnTouchTheStack : Prop :=
  ∀ (i : Instr) (s t : State), exec i s = .next t → (∀ nnn, i ≠ .call nnn) →
    t.stack = s.stack ∧ (i ≠ .ret → t.sp = s.sp)

/-- R61: every instruction but `Fx33` and `Fx55` leaves every byte of memory; those two leave every byte outside the 3,
or `x + 1`, bytes from I on. -/
def Obligations.OnlyStoresChangeMemory : Prop :=
  ∀ (i : Instr) (s t : State), s.mem.wf = true → exec i s = .next t →
    ((∀ x, i ≠ .ldB x ∧ i ≠ .stRegs x) → ∀ a, t.mem.read a = s.mem.read a) ∧
    (∀ x, i = .ldB x → ∀ a, a < s.indexNat ∨ s.indexNat + 3 ≤ a → t.mem.read a = s.mem.read a) ∧
    (∀ x, i = .stRegs x → ∀ a, a < s.indexNat ∨ s.indexNat + (x.toNat + 1) ≤ a → t.mem.read a = s.mem.read a)

/-- R28, R30, R31, R32, R33: the timers, the display, the latch, the status and the snapshot each change only by the
instructions the spec names (the status also by a taken fault). -/
def Obligations.DeviceStateChangesOnlyByItsInstructions : Prop :=
  ∀ (i : Instr) (s t : State), exec i s = .next t →
    t.keys = s.keys ∧ ((∀ x, i ≠ .ldDtVx x) → t.dt = s.dt) ∧ ((∀ x, i ≠ .ldStVx x) → t.st = s.st) ∧
    ((∀ x y n, i ≠ .cls ∧ i ≠ .drw x y n) → t.disp = s.disp) ∧
    ((∀ x, i ≠ .ldVxK x) → t.ksnap = s.ksnap ∧ (NoFault t → t.status = s.status)) ∧
    t.schedule = s.schedule

/-! ### The invariant -/

/-- Every move of the machine, engine or host, keeps the invariant: memory canonical, pc in memory, status legal. -/
def Obligations.EveryMoveKeepsTheInvariant : Prop :=
  ∀ s t : State, s.Inv → step s = .next t → t.Inv

/-- The invariant holds after reset. -/
def Obligations.ResetMeetsTheInvariant : Prop := State.reset.Inv

/-- Every move of the machine, in every state, answers a next state, with the host's next call taken off its schedule: a
fault ends no run of calls, a faulted or unloaded engine included (R252, R253, R275; log 1, log 3). -/
def Obligations.EveryMoveAnswersNext : Prop :=
  ∀ s : State, ∃ t, step s = .next t ∧ t.schedule = s.schedule.tail
end

