-- ==== Sys2Proof/Laws/Config.lean ====
section
/-! SUPPORT. The ranges of the registers at the default widths (00_scope.md R9), as numerals for arithmetic. -/

namespace Sys2Proof.Config

@[simp] theorem two_pow_vWidth : 2 ^ vWidth = 256 := rfl
@[simp] theorem two_pow_iWidth : 2 ^ iWidth = 65536 := rfl
@[simp] theorem two_pow_pcWidth : 2 ^ pcWidth = 65536 := rfl

theorem VReg.toNat_lt (b : VReg) : b.toNat < 256 := b.isLt
theorem IReg.toNat_lt (a : IReg) : a.toNat < 65536 := a.isLt
theorem PcReg.toNat_lt (p : PcReg) : p.toNat < 65536 := p.isLt

end Sys2Proof.Config
end

