-- ==== Sys2Proof/Laws/Decode.lean ====
section
/-! SUPPORT. The fields of words built from nibbles and bytes; what each family's decoder can answer. -/

namespace Sys2Proof

theorem wordOfNibbles_toNat (a b c d : BitVec 4) :
    (wordOfNibbles a b c d).toNat = a.toNat * 4096 + b.toNat * 256 + c.toNat * 16 + d.toNat := by
  have h : (wordOfNibbles a b c d).toNat = BitVec.toNat (w := 4 + 4 + 4 + 4) (a ++ b ++ c ++ d) := rfl
  have hb := b.isLt
  have hc := c.isLt
  have hd := d.isLt
  rw [h, BitVec.toNat_append, BitVec.toNat_append, BitVec.toNat_append, ← Nat.shiftLeft_add_eq_or_of_lt hb,
    ← Nat.shiftLeft_add_eq_or_of_lt hc, ← Nat.shiftLeft_add_eq_or_of_lt hd]
  simp only [Nat.shiftLeft_eq]
  omega

@[simp] theorem fieldA_wordOfNibbles (a b c d : BitVec 4) : fieldA (wordOfNibbles a b c d) = a := by
  apply BitVec.eq_of_toNat_eq
  simp only [fieldA, BitVec.extractLsb'_toNat, wordOfNibbles_toNat, Nat.shiftRight_eq_div_pow]
  omega

@[simp] theorem fieldX_wordOfNibbles (a b c d : BitVec 4) : fieldX (wordOfNibbles a b c d) = b := by
  apply BitVec.eq_of_toNat_eq
  simp only [fieldX, BitVec.extractLsb'_toNat, wordOfNibbles_toNat, Nat.shiftRight_eq_div_pow]
  omega

@[simp] theorem fieldY_wordOfNibbles (a b c d : BitVec 4) : fieldY (wordOfNibbles a b c d) = c := by
  apply BitVec.eq_of_toNat_eq
  simp only [fieldY, BitVec.extractLsb'_toNat, wordOfNibbles_toNat, Nat.shiftRight_eq_div_pow]
  omega

@[simp] theorem fieldN_wordOfNibbles (a b c d : BitVec 4) : fieldN (wordOfNibbles a b c d) = d := by
  apply BitVec.eq_of_toNat_eq
  simp only [fieldN, BitVec.extractLsb'_toNat, wordOfNibbles_toNat, Nat.shiftRight_eq_div_pow]
  omega

/-- A word is its four nibbles (R10). -/
theorem wordOfNibbles_fields (w : Word) : wordOfNibbles (fieldA w) (fieldX w) (fieldY w) (fieldN w) = w := by
  apply BitVec.eq_of_toNat_eq
  simp only [wordOfNibbles_toNat, fieldA, fieldX, fieldY, fieldN, BitVec.extractLsb'_toNat,
    Nat.shiftRight_eq_div_pow]
  omega

@[simp] theorem fieldA_encodeXNN (a : BitVec 4) (x : RegIdx) (nn : Byte) : fieldA (encodeXNN a x nn) = a := by
  simp [encodeXNN]

@[simp] theorem fieldX_encodeXNN (a : BitVec 4) (x : RegIdx) (nn : Byte) : fieldX (encodeXNN a x nn) = x := by
  simp [encodeXNN]

@[simp] theorem fieldNN_encodeXNN (a : BitVec 4) (x : RegIdx) (nn : Byte) : fieldNN (encodeXNN a x nn) = nn := by
  apply BitVec.eq_of_toNat_eq
  simp only [fieldNN, encodeXNN, highNibble, lowNibble, BitVec.extractLsb'_toNat, wordOfNibbles_toNat,
    Nat.shiftRight_eq_div_pow]
  omega

@[simp] theorem fieldA_encodeNNN (a : BitVec 4) (nnn : Addr12) : fieldA (encodeNNN a nnn) = a := by
  simp [encodeNNN]

@[simp] theorem fieldNNN_encodeNNN (a : BitVec 4) (nnn : Addr12) : fieldNNN (encodeNNN a nnn) = nnn := by
  apply BitVec.eq_of_toNat_eq
  simp only [fieldNNN, encodeNNN, BitVec.extractLsb'_toNat, wordOfNibbles_toNat, Nat.shiftRight_eq_div_pow]
  omega

theorem encodeXNN_toNat (a : BitVec 4) (x : RegIdx) (nn : Byte) :
    (encodeXNN a x nn).toNat = a.toNat * 4096 + x.toNat * 256 + nn.toNat := by
  simp only [encodeXNN, highNibble, lowNibble, BitVec.extractLsb'_toNat, wordOfNibbles_toNat,
    Nat.shiftRight_eq_div_pow]
  omega

theorem encodeNNN_toNat (a : BitVec 4) (nnn : Addr12) :
    (encodeNNN a nnn).toNat = a.toNat * 4096 + nnn.toNat := by
  simp only [encodeNNN, BitVec.extractLsb'_toNat, wordOfNibbles_toNat, Nat.shiftRight_eq_div_pow]
  omega

theorem wordOfBytes_toNat (hi lo : Byte) : (wordOfBytes hi lo).toNat = hi.toNat * 256 + lo.toNat := by
  have hh := hi.isLt
  have hl := lo.isLt
  have hs : hi.toNat <<< 8 % 65536 = hi.toNat <<< 8 := Nat.mod_eq_of_lt (by rw [Nat.shiftLeft_eq]; omega)
  simp only [wordOfBytes, BitVec.toNat_or, BitVec.toNat_shiftLeft, BitVec.toNat_setWidth]
  rw [Nat.mod_eq_of_lt (show hi.toNat < 2 ^ 16 by omega), Nat.mod_eq_of_lt (show lo.toNat < 2 ^ 16 by omega), hs,
    ← Nat.shiftLeft_add_eq_or_of_lt hl, Nat.shiftLeft_eq]

/-- A word is its two bytes, the high byte first (R65). -/
@[simp] theorem wordOfBytes_bytes (w : Word) : wordOfBytes (highByte w) (lowByte w) = w := by
  apply BitVec.eq_of_toNat_eq
  simp only [wordOfBytes_toNat, highByte, lowByte, BitVec.extractLsb'_toNat, Nat.shiftRight_eq_div_pow]
  omega

@[simp] theorem highByte_wordOfBytes (hi lo : Byte) : highByte (wordOfBytes hi lo) = hi := by
  apply BitVec.eq_of_toNat_eq
  simp only [highByte, BitVec.extractLsb'_toNat, wordOfBytes_toNat, Nat.shiftRight_eq_div_pow]
  omega

@[simp] theorem lowByte_wordOfBytes (hi lo : Byte) : lowByte (wordOfBytes hi lo) = lo := by
  apply BitVec.eq_of_toNat_eq
  simp only [lowByte, BitVec.extractLsb'_toNat, wordOfBytes_toNat, Nat.shiftRight_eq_div_pow]
  omega

/-- The decoder of one word, on bytes. -/
theorem decode_bytes (hi lo : Byte) (rest : List Byte) :
    decode (hi :: lo :: rest) =
      match decodeWord (wordOfBytes hi lo) with
      | some i => .instr i rest
      | none => .illegal (wordOfBytes hi lo) := rfl

end Sys2Proof
end

