-- ==== Sys2Proof/Laws/Memory.lean ====
section
/-! SUPPORT. The laws of memory: read after write, the canonical form, the loaded predicates. -/

namespace Sys2Proof.Machine

namespace Memory

@[simp] theorem read_nil (a : Nat) : Memory.read [] a = 0x00#8 := rfl

theorem read_cons (c : Host.Cell) (m : Memory) (a : Nat) :
    Memory.read (c :: m) a = if c.1 = a then c.2 else Memory.read m a := rfl

theorem wfFrom_cons (lo : Nat) (c : Host.Cell) (m : Memory) :
    Memory.wfFrom lo (c :: m) = true ↔
      lo ≤ c.1 ∧ c.1 < Config.memSize ∧ c.2 ≠ 0x00#8 ∧ Memory.wfFrom (c.1 + 1) m = true := by
  simp [Memory.wfFrom, and_assoc]

theorem wfFrom_mono {lo lo' : Nat} (h : lo ≤ lo') {m : Memory} (hm : Memory.wfFrom lo' m = true) :
    Memory.wfFrom lo m = true := by
  cases m with
  | nil => rfl
  | cons c m =>
    rw [wfFrom_cons] at hm ⊢
    exact ⟨h.trans hm.1, hm.2⟩

/-- Below its first address a canonical list reads 0. -/
theorem read_below {lo a : Nat} {m : Memory} (hm : Memory.wfFrom lo m = true) (ha : a < lo) :
    m.read a = 0x00#8 := by
  induction m generalizing lo with
  | nil => rfl
  | cons c m ih =>
    rw [wfFrom_cons] at hm
    rw [read_cons, if_neg (by omega)]
    exact ih hm.2.2.2 (by omega)

theorem read_putCell (a : Nat) (b : Byte) (m : Memory) (x : Nat) (h : m.read a = 0x00#8) :
    (Memory.putCell a b m).read x = if x = a then b else m.read x := by
  unfold Memory.putCell
  split
  · next hb =>
    split
    · next hx => rw [hx, h, hb]
    · rfl
  · rw [read_cons]
    simp [eq_comm]

/-- A read after a write, at any address (R63). -/
theorem read_write {m : Memory} {lo : Nat} (hm : Memory.wfFrom lo m = true) (a : Nat) (b : Byte) (x : Nat) :
    (m.write a b).read x = if x = a then b else m.read x := by
  induction m generalizing lo with
  | nil => exact read_putCell a b [] x rfl
  | cons c m ih =>
    have hm' := (wfFrom_cons lo c m).1 hm
    unfold Memory.write
    split
    · next h =>
      apply read_putCell
      rw [read_cons, if_neg (by omega)]
      exact read_below hm'.2.2.2 (by omega)
    · split
      · next h =>
        subst h
        rw [read_putCell _ _ _ _ (read_below hm'.2.2.2 (by omega)), read_cons]
        by_cases hx : x = c.1
        · simp [hx]
        · rw [if_neg hx, if_neg hx, if_neg (Ne.symm hx)]
      · next h1 h2 =>
        rw [read_cons, read_cons, ih hm'.2.2.2]
        by_cases hx : c.1 = x
        · subst hx
          rw [if_pos rfl, if_pos rfl, if_neg (by omega)]
        · rw [if_neg hx, if_neg hx]

theorem wfFrom_putCell {lo a : Nat} {b : Byte} {m : Memory} (hlo : lo ≤ a) (ha : a < Config.memSize)
    (hm : Memory.wfFrom (a + 1) m = true) : Memory.wfFrom lo (Memory.putCell a b m) = true := by
  unfold Memory.putCell
  split
  · exact wfFrom_mono (by omega) hm
  · next hb => exact (wfFrom_cons _ _ _).2 ⟨hlo, ha, hb, hm⟩

theorem wfFrom_write {m : Memory} {lo a : Nat} (hm : Memory.wfFrom lo m = true) (hlo : lo ≤ a)
    (ha : a < Config.memSize) (b : Byte) : Memory.wfFrom lo (m.write a b) = true := by
  induction m generalizing lo with
  | nil => exact wfFrom_putCell hlo ha rfl
  | cons c m ih =>
    have hm' := (wfFrom_cons lo c m).1 hm
    unfold Memory.write
    split
    · next h => exact wfFrom_putCell hlo ha ((wfFrom_cons _ _ _).2 ⟨h, hm'.2⟩)
    · split
      · next h => subst h; exact wfFrom_putCell hlo ha hm'.2.2.2
      · next h1 h2 => exact (wfFrom_cons _ _ _).2 ⟨hm'.1, hm'.2.1, hm'.2.2.1, ih hm'.2.2.2 (by omega)⟩

/-- A write keeps the canonical form. -/
theorem wf_write {m : Memory} (hm : m.wf = true) {a : Nat} (ha : a < Config.memSize) (b : Byte) :
    (m.write a b).wf = true :=
  wfFrom_write hm (Nat.zero_le a) ha b

theorem wf_nil : Memory.wf [] = true := rfl

/-- Writing bytes in memory keeps the canonical form. -/
theorem wf_writeBytes {m : Memory} (hm : m.wf = true) {base : Nat} {bs : List Byte}
    (h : base + bs.length ≤ Config.memSize) : (m.writeBytes base bs).wf = true := by
  induction bs generalizing m base with
  | nil => exact hm
  | cons b bs ih =>
    rw [List.length_cons] at h
    exact ih (wf_write hm (by omega) b) (by omega)

/-- A read after writing bytes: inside the range the byte written, outside what stood there. -/
theorem read_writeBytes {m : Memory} (hm : m.wf = true) {base : Nat} {bs : List Byte}
    (h : base + bs.length ≤ Config.memSize) (x : Nat) :
    (m.writeBytes base bs).read x =
      if base ≤ x ∧ x < base + bs.length then bs.getD (x - base) 0x00#8 else m.read x := by
  induction bs generalizing m base with
  | nil =>
    rw [if_neg (by simp only [List.length_nil]; omega)]
    rfl
  | cons b bs ih =>
    rw [List.length_cons] at h ⊢
    have hw : Memory.read (m.write base b) x = _ := read_write hm base b x
    rw [Memory.writeBytes, ih (wf_write hm (by omega) b) (by omega), hw]
    by_cases hx : x = base
    · subst hx
      rw [if_neg (by omega), if_pos rfl, if_pos (by omega), Nat.sub_self]
      rfl
    · by_cases hin : base + 1 ≤ x ∧ x < base + 1 + bs.length
      · rw [if_pos hin, if_pos (by omega), show x - base = (x - (base + 1)) + 1 by omega]
        rfl
      · rw [if_neg hin, if_neg hx, if_neg (by omega)]

@[simp] theorem readBytes_length (m : Memory) (base count : Nat) : (m.readBytes base count).length = count := by
  simp [Memory.readBytes]

theorem readBytes_getD (m : Memory) (base count k : Nat) (hk : k < count) :
    (m.readBytes base count).getD k 0x00#8 = m.read (base + k) := by
  simp [Memory.readBytes, List.getD_eq_getElem?_getD, hk]

/-- An address that reads non-zero is listed. -/
theorem listed_of_read_ne {m : Memory} {a : Nat} (h : m.read a ≠ 0x00#8) : ∃ c ∈ m, c.1 = a := by
  induction m with
  | nil => exact absurd rfl h
  | cons c m ih =>
    rw [read_cons] at h
    by_cases hc : c.1 = a
    · exact ⟨c, List.mem_cons_self, hc⟩
    · rw [if_neg hc] at h
      obtain ⟨d, hd, hda⟩ := ih h
      exact ⟨d, List.mem_cons_of_mem _ hd, hda⟩

/-- What `anyNonzero` tests (R70). -/
theorem anyNonzero_iff (m : Memory) (lo hi : Nat) :
    m.anyNonzero lo hi = true ↔ ∃ a, lo ≤ a ∧ a < hi ∧ m.read a ≠ 0x00#8 := by
  simp only [Memory.anyNonzero, List.any_eq_true, Bool.and_eq_true, decide_eq_true_eq, bne_iff_ne]
  constructor
  · rintro ⟨c, -, ⟨h1, h2⟩, h3⟩
    exact ⟨c.1, h1, h2, h3⟩
  · rintro ⟨a, h1, h2, h3⟩
    obtain ⟨c, hc, rfl⟩ := listed_of_read_ne h3
    exact ⟨c, hc, ⟨h1, h2⟩, h3⟩

@[simp] theorem checkedRead_ok {m : Memory} {a : Nat} (h : a < Config.memSize) :
    m.checkedRead a = .ok (m.read a) := if_neg (by omega)

theorem checkedRead_error {m : Memory} {a : Nat} (h : Config.memSize ≤ a) : m.checkedRead a = .error a := if_pos h

end Memory

/-- The range check fails exactly when some byte is accessed and the range passes the end (R64). -/
theorem rangeFault_eq_some {base count : Nat} (h0 : 0 < count) (h : Config.memSize < base + count) :
    rangeFault base count = some (max base Config.memSize) := if_pos ⟨h0, h⟩

theorem rangeFault_eq_none {base count : Nat} (h : count = 0 ∨ base + count ≤ Config.memSize) :
    rangeFault base count = none := if_neg (by omega)

/-- Everything the range check can answer (R64). -/
theorem rangeFault_cases (base count : Nat) :
    (rangeFault base count = none ∧ (count = 0 ∨ base + count ≤ Config.memSize)) ∨
      (rangeFault base count = some (max base Config.memSize) ∧ 0 < count ∧ Config.memSize < base + count) := by
  by_cases h : 0 < count ∧ Config.memSize < base + count
  · exact .inr ⟨if_pos h, h⟩
  · exact .inl ⟨if_neg h, by omega⟩

end Sys2Proof.Machine
end

