-- ==== Sys2Proof/Laws/State.lean ====
section
/-! SUPPORT. The small lemmas of the state's updates: one per field per update, and what each register write leaves. -/

namespace Sys2Proof.Machine

/-! ### setV -/

@[simp] theorem setV_mem (s : State) (x : RegIdx) (b : Byte) : (s.setV x b).mem = s.mem := rfl
@[simp] theorem setV_index (s : State) (x : RegIdx) (b : Byte) : (s.setV x b).index = s.index := rfl
@[simp] theorem setV_pc (s : State) (x : RegIdx) (b : Byte) : (s.setV x b).pc = s.pc := rfl
@[simp] theorem setV_stack (s : State) (x : RegIdx) (b : Byte) : (s.setV x b).stack = s.stack := rfl
@[simp] theorem setV_sp (s : State) (x : RegIdx) (b : Byte) : (s.setV x b).sp = s.sp := rfl
@[simp] theorem setV_dt (s : State) (x : RegIdx) (b : Byte) : (s.setV x b).dt = s.dt := rfl
@[simp] theorem setV_st (s : State) (x : RegIdx) (b : Byte) : (s.setV x b).st = s.st := rfl
@[simp] theorem setV_disp (s : State) (x : RegIdx) (b : Byte) : (s.setV x b).disp = s.disp := rfl
@[simp] theorem setV_keys (s : State) (x : RegIdx) (b : Byte) : (s.setV x b).keys = s.keys := rfl
@[simp] theorem setV_status (s : State) (x : RegIdx) (b : Byte) : (s.setV x b).status = s.status := rfl
@[simp] theorem setV_ksnap (s : State) (x : RegIdx) (b : Byte) : (s.setV x b).ksnap = s.ksnap := rfl
@[simp] theorem setV_draws (s : State) (x : RegIdx) (b : Byte) : (s.setV x b).draws = s.draws := rfl
@[simp] theorem setV_result (s : State) (x : RegIdx) (b : Byte) : (s.setV x b).result = s.result := rfl
@[simp] theorem setV_schedule (s : State) (x : RegIdx) (b : Byte) : (s.setV x b).schedule = s.schedule := rfl

/-- The ranges of the registers as numbers, for arithmetic. -/
theorem getV_toNat_lt (s : State) (x : RegIdx) : (s.getV x).toNat < 256 := (s.getV x).isLt
theorem pcNat_lt (s : State) : s.pcNat < 65536 := s.pc.isLt
theorem indexNat_lt (s : State) : s.index.toNat < 65536 := s.index.isLt

/-- A register read after a register write (R20). -/
theorem getV_setV (s : State) (x r : RegIdx) (b : Byte) : (s.setV x b).getV r = if r = x then b else s.getV r := by
  unfold State.getV State.setV
  rw [Vector.getElem_set]
  by_cases h : r = x
  · subst h; simp
  · rw [if_neg h, if_neg (fun e => h (BitVec.eq_of_toNat_eq e.symm))]

@[simp] theorem getV_setV_same (s : State) (x : RegIdx) (b : Byte) : (s.setV x b).getV x = b := by
  rw [getV_setV, if_pos rfl]

theorem getV_setV_other (s : State) {x r : RegIdx} (b : Byte) (h : r ≠ x) : (s.setV x b).getV r = s.getV r := by
  rw [getV_setV, if_neg h]

/-- Two register files with equal registers are equal. -/
theorem v_ext {s t : State} (h : ∀ r, s.getV r = t.getV r) : s.v = t.v := by
  apply Vector.ext
  intro k hk
  have := h (BitVec.ofNat 4 k)
  simpa [State.getV, Nat.mod_eq_of_lt hk] using this

/-! ### setRegsFrom -/

/-- `setRegsFrom` writes registers only. -/
theorem setRegsFrom_eq (s : State) (k : Nat) (bs : List Byte) :
    s.setRegsFrom k bs = { s with v := (s.setRegsFrom k bs).v } := by
  induction bs generalizing s k with
  | nil => rfl
  | cons b bs ih => rw [State.setRegsFrom, ih]; rfl

@[simp] theorem setRegsFrom_mem (s : State) (k : Nat) (bs : List Byte) : (s.setRegsFrom k bs).mem = s.mem := by
  rw [setRegsFrom_eq]
@[simp] theorem setRegsFrom_index (s : State) (k : Nat) (bs : List Byte) : (s.setRegsFrom k bs).index = s.index := by
  rw [setRegsFrom_eq]
@[simp] theorem setRegsFrom_pc (s : State) (k : Nat) (bs : List Byte) : (s.setRegsFrom k bs).pc = s.pc := by
  rw [setRegsFrom_eq]
@[simp] theorem setRegsFrom_stack (s : State) (k : Nat) (bs : List Byte) : (s.setRegsFrom k bs).stack = s.stack := by
  rw [setRegsFrom_eq]
@[simp] theorem setRegsFrom_sp (s : State) (k : Nat) (bs : List Byte) : (s.setRegsFrom k bs).sp = s.sp := by
  rw [setRegsFrom_eq]
@[simp] theorem setRegsFrom_dt (s : State) (k : Nat) (bs : List Byte) : (s.setRegsFrom k bs).dt = s.dt := by
  rw [setRegsFrom_eq]
@[simp] theorem setRegsFrom_st (s : State) (k : Nat) (bs : List Byte) : (s.setRegsFrom k bs).st = s.st := by
  rw [setRegsFrom_eq]
@[simp] theorem setRegsFrom_disp (s : State) (k : Nat) (bs : List Byte) : (s.setRegsFrom k bs).disp = s.disp := by
  rw [setRegsFrom_eq]
@[simp] theorem setRegsFrom_keys (s : State) (k : Nat) (bs : List Byte) : (s.setRegsFrom k bs).keys = s.keys := by
  rw [setRegsFrom_eq]
@[simp] theorem setRegsFrom_status (s : State) (k : Nat) (bs : List Byte) : (s.setRegsFrom k bs).status = s.status := by
  rw [setRegsFrom_eq]
@[simp] theorem setRegsFrom_ksnap (s : State) (k : Nat) (bs : List Byte) : (s.setRegsFrom k bs).ksnap = s.ksnap := by
  rw [setRegsFrom_eq]
@[simp] theorem setRegsFrom_draws (s : State) (k : Nat) (bs : List Byte) : (s.setRegsFrom k bs).draws = s.draws := by
  rw [setRegsFrom_eq]
@[simp] theorem setRegsFrom_result (s : State) (k : Nat) (bs : List Byte) : (s.setRegsFrom k bs).result = s.result := by
  rw [setRegsFrom_eq]
@[simp] theorem setRegsFrom_schedule (s : State) (k : Nat) (bs : List Byte) : (s.setRegsFrom k bs).schedule = s.schedule := by
  rw [setRegsFrom_eq]

/-- A register after a block load (R195): a loaded byte inside the block, the old value outside. -/
theorem getV_setRegsFrom (s : State) (k : Nat) (bs : List Byte) (h : k + bs.length ≤ 16) (r : RegIdx) :
    (s.setRegsFrom k bs).getV r =
      if k ≤ r.toNat ∧ r.toNat < k + bs.length then bs.getD (r.toNat - k) 0x00#8 else s.getV r := by
  induction bs generalizing s k with
  | nil =>
    rw [if_neg (by simp only [List.length_nil]; omega)]
    rfl
  | cons b bs ih =>
    rw [List.length_cons] at h ⊢
    rw [State.setRegsFrom, ih _ _ (by omega), getV_setV]
    have hk : (BitVec.ofNat 4 k).toNat = k := by rw [BitVec.toNat_ofNat]; omega
    by_cases hr : r = BitVec.ofNat 4 k
    · have hr' : r.toNat = k := by rw [hr, hk]
      rw [if_neg (by omega), if_pos hr, if_pos (by omega), hr', Nat.sub_self]
      rfl
    · have hne : r.toNat ≠ k := fun e => hr (BitVec.eq_of_toNat_eq (by rw [hk, e]))
      by_cases hin : k + 1 ≤ r.toNat ∧ r.toNat < k + 1 + bs.length
      · rw [if_pos hin, if_pos (by omega), show r.toNat - k = (r.toNat - (k + 1)) + 1 by omega]
        rfl
      · rw [if_neg hin, if_neg hr, if_neg (by omega)]

@[simp] theorem regsUpTo_length (s : State) (x : RegIdx) : (s.regsUpTo x).length = x.toNat + 1 := by
  simp [State.regsUpTo]

theorem regsUpTo_getD (s : State) (x : RegIdx) (k : Nat) (hk : k ≤ x.toNat) :
    (s.regsUpTo x).getD k 0x00#8 = s.getV (BitVec.ofNat 4 k) := by
  simp [State.regsUpTo, List.getD_eq_getElem?_getD, Nat.lt_succ_of_le hk]

/-! ### setResultThenFlag, setShift, drawSprite -/

@[simp] theorem setResultThenFlag_mem (s : State) (x : RegIdx) (r : Byte) (f : Bool) : (s.setResultThenFlag x r f).mem = s.mem := rfl
@[simp] theorem setResultThenFlag_index (s : State) (x : RegIdx) (r : Byte) (f : Bool) : (s.setResultThenFlag x r f).index = s.index := rfl
@[simp] theorem setResultThenFlag_pc (s : State) (x : RegIdx) (r : Byte) (f : Bool) : (s.setResultThenFlag x r f).pc = s.pc := rfl
@[simp] theorem setResultThenFlag_stack (s : State) (x : RegIdx) (r : Byte) (f : Bool) : (s.setResultThenFlag x r f).stack = s.stack := rfl
@[simp] theorem setResultThenFlag_sp (s : State) (x : RegIdx) (r : Byte) (f : Bool) : (s.setResultThenFlag x r f).sp = s.sp := rfl
@[simp] theorem setResultThenFlag_dt (s : State) (x : RegIdx) (r : Byte) (f : Bool) : (s.setResultThenFlag x r f).dt = s.dt := rfl
@[simp] theorem setResultThenFlag_st (s : State) (x : RegIdx) (r : Byte) (f : Bool) : (s.setResultThenFlag x r f).st = s.st := rfl
@[simp] theorem setResultThenFlag_disp (s : State) (x : RegIdx) (r : Byte) (f : Bool) : (s.setResultThenFlag x r f).disp = s.disp := rfl
@[simp] theorem setResultThenFlag_keys (s : State) (x : RegIdx) (r : Byte) (f : Bool) : (s.setResultThenFlag x r f).keys = s.keys := rfl
@[simp] theorem setResultThenFlag_status (s : State) (x : RegIdx) (r : Byte) (f : Bool) : (s.setResultThenFlag x r f).status = s.status := rfl
@[simp] theorem setResultThenFlag_ksnap (s : State) (x : RegIdx) (r : Byte) (f : Bool) : (s.setResultThenFlag x r f).ksnap = s.ksnap := rfl
@[simp] theorem setResultThenFlag_draws (s : State) (x : RegIdx) (r : Byte) (f : Bool) : (s.setResultThenFlag x r f).draws = s.draws := rfl
@[simp] theorem setResultThenFlag_result (s : State) (x : RegIdx) (r : Byte) (f : Bool) : (s.setResultThenFlag x r f).result = s.result := rfl
@[simp] theorem setResultThenFlag_schedule (s : State) (x : RegIdx) (r : Byte) (f : Bool) : (s.setResultThenFlag x r f).schedule = s.schedule := rfl

/-- A register after a result and its flag (R161): the flag wins in VF. -/
theorem getV_setResultThenFlag (s : State) (x r : RegIdx) (b : Byte) (f : Bool) :
    (s.setResultThenFlag x b f).getV r = if r = regF then flagByte f else if r = x then b else s.getV r := by
  rw [State.setResultThenFlag, getV_setV, getV_setV]

/-- `setShift` writes registers only. -/
theorem setShift_eq (mode : Config.VfAlias) (s : State) (x : RegIdx) (out shift : Byte → Byte) :
    s.setShift mode x out shift = { s with v := (s.setShift mode x out shift).v } := by
  cases mode <;> rfl

@[simp] theorem setShift_mem (mode : Config.VfAlias) (s : State) (x : RegIdx) (out shift : Byte → Byte) :
    (s.setShift mode x out shift).mem = s.mem := by
  rw [setShift_eq]
@[simp] theorem setShift_index (mode : Config.VfAlias) (s : State) (x : RegIdx) (out shift : Byte → Byte) :
    (s.setShift mode x out shift).index = s.index := by
  rw [setShift_eq]
@[simp] theorem setShift_pc (mode : Config.VfAlias) (s : State) (x : RegIdx) (out shift : Byte → Byte) :
    (s.setShift mode x out shift).pc = s.pc := by
  rw [setShift_eq]
@[simp] theorem setShift_stack (mode : Config.VfAlias) (s : State) (x : RegIdx) (out shift : Byte → Byte) :
    (s.setShift mode x out shift).stack = s.stack := by
  rw [setShift_eq]
@[simp] theorem setShift_sp (mode : Config.VfAlias) (s : State) (x : RegIdx) (out shift : Byte → Byte) :
    (s.setShift mode x out shift).sp = s.sp := by
  rw [setShift_eq]
@[simp] theorem setShift_dt (mode : Config.VfAlias) (s : State) (x : RegIdx) (out shift : Byte → Byte) :
    (s.setShift mode x out shift).dt = s.dt := by
  rw [setShift_eq]
@[simp] theorem setShift_st (mode : Config.VfAlias) (s : State) (x : RegIdx) (out shift : Byte → Byte) :
    (s.setShift mode x out shift).st = s.st := by
  rw [setShift_eq]
@[simp] theorem setShift_disp (mode : Config.VfAlias) (s : State) (x : RegIdx) (out shift : Byte → Byte) :
    (s.setShift mode x out shift).disp = s.disp := by
  rw [setShift_eq]
@[simp] theorem setShift_keys (mode : Config.VfAlias) (s : State) (x : RegIdx) (out shift : Byte → Byte) :
    (s.setShift mode x out shift).keys = s.keys := by
  rw [setShift_eq]
@[simp] theorem setShift_status (mode : Config.VfAlias) (s : State) (x : RegIdx) (out shift : Byte → Byte) :
    (s.setShift mode x out shift).status = s.status := by
  rw [setShift_eq]
@[simp] theorem setShift_ksnap (mode : Config.VfAlias) (s : State) (x : RegIdx) (out shift : Byte → Byte) :
    (s.setShift mode x out shift).ksnap = s.ksnap := by
  rw [setShift_eq]
@[simp] theorem setShift_draws (mode : Config.VfAlias) (s : State) (x : RegIdx) (out shift : Byte → Byte) :
    (s.setShift mode x out shift).draws = s.draws := by
  rw [setShift_eq]
@[simp] theorem setShift_result (mode : Config.VfAlias) (s : State) (x : RegIdx) (out shift : Byte → Byte) :
    (s.setShift mode x out shift).result = s.result := by
  rw [setShift_eq]
@[simp] theorem setShift_schedule (mode : Config.VfAlias) (s : State) (x : RegIdx) (out shift : Byte → Byte) :
    (s.setShift mode x out shift).schedule = s.schedule := by
  rw [setShift_eq]

/-- A register after a shift of `Vx` with `x` not VF: the same in every reading of `VF_ALIAS` (R161). -/
theorem getV_setShift (mode : Config.VfAlias) (s : State) {x : RegIdx} (hx : x ≠ regF) (out shift : Byte → Byte)
    (r : RegIdx) :
    (s.setShift mode x out shift).getV r =
      if r = regF then out (s.getV x) else if r = x then shift (s.getV x) else s.getV r := by
  have hx' : (s.setV regF (out (s.getV x))).getV x = s.getV x := getV_setV_other s _ hx
  by_cases h : r = x
  · subst h
    cases mode <;> simp [State.setShift, getV_setV, hx]
  · cases mode <;> simp [State.setShift, getV_setV, h]

@[simp] theorem drawSprite_mem (s : State) (x y : RegIdx) (n : Nat) : (s.drawSprite x y n).mem = s.mem := rfl
@[simp] theorem drawSprite_index (s : State) (x y : RegIdx) (n : Nat) : (s.drawSprite x y n).index = s.index := rfl
@[simp] theorem drawSprite_pc (s : State) (x y : RegIdx) (n : Nat) : (s.drawSprite x y n).pc = s.pc := rfl
@[simp] theorem drawSprite_stack (s : State) (x y : RegIdx) (n : Nat) : (s.drawSprite x y n).stack = s.stack := rfl
@[simp] theorem drawSprite_sp (s : State) (x y : RegIdx) (n : Nat) : (s.drawSprite x y n).sp = s.sp := rfl
@[simp] theorem drawSprite_dt (s : State) (x y : RegIdx) (n : Nat) : (s.drawSprite x y n).dt = s.dt := rfl
@[simp] theorem drawSprite_st (s : State) (x y : RegIdx) (n : Nat) : (s.drawSprite x y n).st = s.st := rfl
@[simp] theorem drawSprite_keys (s : State) (x y : RegIdx) (n : Nat) : (s.drawSprite x y n).keys = s.keys := rfl
@[simp] theorem drawSprite_status (s : State) (x y : RegIdx) (n : Nat) : (s.drawSprite x y n).status = s.status := rfl
@[simp] theorem drawSprite_ksnap (s : State) (x y : RegIdx) (n : Nat) : (s.drawSprite x y n).ksnap = s.ksnap := rfl
@[simp] theorem drawSprite_draws (s : State) (x y : RegIdx) (n : Nat) : (s.drawSprite x y n).draws = s.draws := rfl
@[simp] theorem drawSprite_result (s : State) (x y : RegIdx) (n : Nat) : (s.drawSprite x y n).result = s.result := rfl
@[simp] theorem drawSprite_schedule (s : State) (x y : RegIdx) (n : Nat) : (s.drawSprite x y n).schedule = s.schedule := rfl

/-- A register after a draw: only VF changes (R211). -/
theorem getV_drawSprite_other (s : State) (x y r : RegIdx) (n : Nat) (hr : r ≠ regF) :
    (s.drawSprite x y n).getV r = s.getV r := getV_setV_other _ _ hr

/-! ### Call stack (R27) -/

/-- Everything a push can answer. -/
theorem push_cases (s : State) (w : Word) :
    (s.sp.val = Config.stackDepth ∧ s.push w = none) ∨
      ∃ h : s.sp.val < Config.stackDepth,
        s.push w = some { s with stack := s.stack.set s.sp.val w h, sp := ⟨s.sp.val + 1, Nat.succ_lt_succ h⟩ } := by
  by_cases h : s.sp.val < Config.stackDepth
  · exact .inr ⟨h, dif_pos h⟩
  · exact .inl ⟨by have := s.sp.isLt; omega, dif_neg h⟩

/-- Everything a pop can answer. -/
theorem pop_cases (s : State) :
    (s.sp.val = 0 ∧ s.pop = none) ∨
      ∃ (_ : 0 < s.sp.val) (h' : s.sp.val - 1 < Config.stackDepth) (h'' : s.sp.val - 1 < Config.stackDepth + 1),
        s.pop = some (s.stack[s.sp.val - 1], { s with sp := ⟨s.sp.val - 1, h''⟩ }) := by
  have hlt := s.sp.isLt
  by_cases h : 0 < s.sp.val
  · exact .inr ⟨h, by omega, by omega, dif_pos h⟩
  · exact .inl ⟨by omega, dif_neg h⟩

/-! ### Host calls -/

@[simp] theorem hostTick_mem (s : State) : (hostTick s).mem = s.mem := rfl
@[simp] theorem hostTick_v (s : State) : (hostTick s).v = s.v := rfl
@[simp] theorem hostTick_index (s : State) : (hostTick s).index = s.index := rfl
@[simp] theorem hostTick_pc (s : State) : (hostTick s).pc = s.pc := rfl
@[simp] theorem hostTick_stack (s : State) : (hostTick s).stack = s.stack := rfl
@[simp] theorem hostTick_sp (s : State) : (hostTick s).sp = s.sp := rfl
@[simp] theorem hostTick_disp (s : State) : (hostTick s).disp = s.disp := rfl
@[simp] theorem hostTick_keys (s : State) : (hostTick s).keys = s.keys := rfl
@[simp] theorem hostTick_status (s : State) : (hostTick s).status = s.status := rfl
@[simp] theorem hostTick_ksnap (s : State) : (hostTick s).ksnap = s.ksnap := rfl
@[simp] theorem hostTick_draws (s : State) : (hostTick s).draws = s.draws := rfl
@[simp] theorem hostTick_schedule (s : State) : (hostTick s).schedule = s.schedule := rfl
@[simp] theorem hostWriteKeys_mem (s : State) (ks : KeySet) : (hostWriteKeys ks s).mem = s.mem := rfl
@[simp] theorem hostWriteKeys_v (s : State) (ks : KeySet) : (hostWriteKeys ks s).v = s.v := rfl
@[simp] theorem hostWriteKeys_index (s : State) (ks : KeySet) : (hostWriteKeys ks s).index = s.index := rfl
@[simp] theorem hostWriteKeys_pc (s : State) (ks : KeySet) : (hostWriteKeys ks s).pc = s.pc := rfl
@[simp] theorem hostWriteKeys_stack (s : State) (ks : KeySet) : (hostWriteKeys ks s).stack = s.stack := rfl
@[simp] theorem hostWriteKeys_sp (s : State) (ks : KeySet) : (hostWriteKeys ks s).sp = s.sp := rfl
@[simp] theorem hostWriteKeys_dt (s : State) (ks : KeySet) : (hostWriteKeys ks s).dt = s.dt := rfl
@[simp] theorem hostWriteKeys_st (s : State) (ks : KeySet) : (hostWriteKeys ks s).st = s.st := rfl
@[simp] theorem hostWriteKeys_disp (s : State) (ks : KeySet) : (hostWriteKeys ks s).disp = s.disp := rfl
@[simp] theorem hostWriteKeys_status (s : State) (ks : KeySet) : (hostWriteKeys ks s).status = s.status := rfl
@[simp] theorem hostWriteKeys_ksnap (s : State) (ks : KeySet) : (hostWriteKeys ks s).ksnap = s.ksnap := rfl
@[simp] theorem hostWriteKeys_draws (s : State) (ks : KeySet) : (hostWriteKeys ks s).draws = s.draws := rfl
@[simp] theorem hostWriteKeys_schedule (s : State) (ks : KeySet) : (hostWriteKeys ks s).schedule = s.schedule := rfl

/-- `hostLoad` changes memory and the result only (R71). -/
theorem hostLoad_eq (offset : Nat) (bs : List Byte) (s : State) :
    hostLoad offset bs s = { s with mem := (hostLoad offset bs s).mem, result := (hostLoad offset bs s).result } := by
  unfold hostLoad
  split <;> rfl

end Sys2Proof.Machine
end

