-- ==== Sys2Proof/Laws/Ops.lean ====
section
/-! SUPPORT. Everything the shared operations can answer: the guards, committing, the key choice. -/

namespace Sys2Proof.Machine

/-! ### Guards -/

/-- Everything a range guard can answer (R64). -/
theorem guardRange_cases (i : Instr) (s : State) (base count : Nat) (eff : Effect) :
    (guardRange i s base count eff = eff ∧ (count = 0 ∨ base + count ≤ Config.memSize)) ∨
      (guardRange i s base count eff = .raised (outOfBoundsAt i s (max base Config.memSize)) ∧ 0 < count ∧
        Config.memSize < base + count) := by
  rcases rangeFault_cases base count with ⟨h, h'⟩ | ⟨h, h'⟩
  · exact .inl ⟨by rw [guardRange, h], h'⟩
  · exact .inr ⟨by rw [guardRange, h], h'⟩

theorem hexDigit_eq_some {b : Byte} (h : b.toNat ≤ 0xF) : hexDigit b = some (b.setWidth 4) := if_neg (by omega)

theorem hexDigit_eq_none {b : Byte} (h : 0xF < b.toNat) : hexDigit b = none := if_pos h

/-- Everything a digit guard can answer (D6, D7). -/
theorem withDigit_cases (i : Instr) (s : State) (b : Byte) (k : RegIdx → Effect) :
    (b.toNat ≤ 0xF ∧ withDigit i s b k = k (b.setWidth 4)) ∨
      (0xF < b.toNat ∧ withDigit i s b k = .raised (.operandOutOfRange s.pc (encode i) b)) := by
  by_cases h : b.toNat ≤ 0xF
  · exact .inl ⟨h, by rw [withDigit, hexDigit_eq_some h]⟩
  · exact .inr ⟨by omega, by rw [withDigit, hexDigit_eq_none (by omega)]⟩

/-! ### Committing (R95 to R97) -/

theorem commit_raised (i : Instr) (s : State) (e : Fault) : commit i s (.raised e) = takeFault e s := rfl

theorem commit_done {i : Instr} {s t : State} {npc : Nat} {r : Result} (h : npc < Config.memSize) :
    commit i s (.done t npc r) = .next { t with pc := BitVec.ofNat 16 npc, result := r } := if_neg (by omega)

theorem commit_past {i : Instr} {s t : State} {npc : Nat} {r : Result} (h : Config.memSize ≤ npc) :
    commit i s (.done t npc r) = takeFault (outOfBoundsAt i s npc) s := if_pos h

/-- Everything a commit can answer: the working copy with its next pc, or a taken fault (R95, R97, R251). -/
theorem commit_cases (i : Instr) (s : State) (eff : Effect) :
    (∃ t npc r, eff = .done t npc r ∧ npc < Config.memSize ∧
        commit i s eff = .next { t with pc := BitVec.ofNat 16 npc, result := r }) ∨
      (∃ t npc r, eff = .done t npc r ∧ Config.memSize ≤ npc ∧
        commit i s eff = takeFault (outOfBoundsAt i s npc) s) ∨
      (∃ e, eff = .raised e ∧ commit i s eff = takeFault e s) := by
  cases eff with
  | raised e => exact .inr (.inr ⟨e, rfl, rfl⟩)
  | done t npc r =>
    by_cases h : npc < Config.memSize
    · exact .inl ⟨t, npc, r, rfl, h, commit_done h⟩
    · exact .inr (.inl ⟨t, npc, r, rfl, by omega, commit_past (by omega)⟩)

/-! ### Display -/

/-- A pixel after one flip. -/
theorem pixel_flip (d : Display) (x px : Fin Config.dispW) (y py : Fin Config.dispH) :
    (d.flip x y).pixel px py = if px = x ∧ py = y then !d.pixel px py else d.pixel px py := by
  unfold Display.flip Display.pixel
  by_cases hy : py = y
  · subst hy
    by_cases hx : px = x
    · subst hx; simp
    · have : ¬ x.val = px.val := fun h => hx (Fin.ext h.symm)
      simp [this, hx]
  · have : ¬ y.val = py.val := fun h => hy (Fin.ext h.symm)
    simp [this, hy]

@[simp] theorem pixel_blank (px : Fin Config.dispW) (py : Fin Config.dispH) : Display.blank.pixel px py = false := by
  simp [Display.blank, Display.pixel]

/-- Two displays with equal pixels are equal. -/
theorem display_ext {d e : Display} (h : ∀ px py, d.pixel px py = e.pixel px py) : d = e := by
  apply Vector.ext
  intro y hy
  apply Vector.ext
  intro x hx
  exact h ⟨x, hx⟩ ⟨y, hy⟩

/-- A pixel that is not in the list keeps its value. -/
theorem pixel_drawPixels_of_not_mem (d : Display) (c : Bool) (ps : List (Fin Config.dispW × Fin Config.dispH))
    (px : Fin Config.dispW) (py : Fin Config.dispH) (h : (px, py) ∉ ps) :
    (drawPixels d c ps).1.pixel px py = d.pixel px py := by
  induction ps generalizing d c with
  | nil => rfl
  | cons p ps ih =>
    rw [List.mem_cons, not_or] at h
    rw [drawPixels, ih _ _ h.2, pixel_flip, if_neg]
    rintro ⟨h1, h2⟩
    exact h.1 (Prod.ext h1 h2)

/-- A list of different pixels inverts each of its pixels once (R211). -/
theorem pixel_drawPixels_of_mem (d : Display) (c : Bool) (ps : List (Fin Config.dispW × Fin Config.dispH))
    (hn : ps.Nodup) (px : Fin Config.dispW) (py : Fin Config.dispH) (h : (px, py) ∈ ps) :
    (drawPixels d c ps).1.pixel px py = !d.pixel px py := by
  induction ps generalizing d c with
  | nil => exact absurd h List.not_mem_nil
  | cons p ps ih =>
    rw [List.nodup_cons] at hn
    rw [drawPixels]
    by_cases hp : (px, py) = p
    · rw [pixel_drawPixels_of_not_mem _ _ _ _ _ (hp ▸ hn.1), pixel_flip, if_pos]
      exact ⟨congrArg Prod.fst hp, congrArg Prod.snd hp⟩
    · rw [ih _ _ hn.2 ((List.mem_cons.1 h).resolve_left hp), pixel_flip, if_neg]
      rintro ⟨h1, h2⟩
      exact hp (Prod.ext h1 h2)

/-- The collision of a list of different pixels: one of them was set before (R213). -/
theorem collision_drawPixels (d : Display) (c : Bool) (ps : List (Fin Config.dispW × Fin Config.dispH))
    (hn : ps.Nodup) :
    (drawPixels d c ps).2 = true ↔ c = true ∨ ∃ p ∈ ps, d.pixel p.1 p.2 = true := by
  induction ps generalizing d c with
  | nil => simp [drawPixels]
  | cons p ps ih =>
    rw [List.nodup_cons] at hn
    rw [drawPixels, ih _ _ hn.2, Bool.or_eq_true, or_assoc]
    have hsame : ∀ q ∈ ps, (d.flip p.1 p.2).pixel q.1 q.2 = d.pixel q.1 q.2 := by
      intro q hq
      rw [pixel_flip, if_neg]
      rintro ⟨h1, h2⟩
      exact hn.1 (by rw [← show q = p from Prod.ext h1 h2]; exact hq)
    constructor
    · rintro (h | h | ⟨q, hq, hd⟩)
      · exact .inl h
      · exact .inr ⟨p, List.mem_cons_self, h⟩
      · exact .inr ⟨q, List.mem_cons_of_mem _ hq, hsame q hq ▸ hd⟩
    · rintro (h | ⟨q, hq, hd⟩)
      · exact .inl h
      · rcases List.mem_cons.1 hq with rfl | hq
        · exact .inr (.inl hd)
        · exact .inr (.inr ⟨q, hq, (hsame q hq).trans hd⟩)

/-- The pixels of one sprite row (R212). -/
theorem mem_rowPixels (X Y r : Nat) (b : Byte) (p : Fin Config.dispW × Fin Config.dispH) :
    p ∈ rowPixels X Y r b ↔ ∃ j < 8, b.getLsbD (7 - j) = true ∧ p = (column X j, row Y r) := by
  simp only [rowPixels, List.mem_map, List.mem_filter, List.mem_range]
  constructor
  · rintro ⟨j, ⟨hj, hb⟩, rfl⟩
    exact ⟨j, hj, hb, rfl⟩
  · rintro ⟨j, hj, hb, rfl⟩
    exact ⟨j, ⟨hj, hb⟩, rfl⟩

/-- The pixels of a sprite (R212). -/
theorem mem_spritePixels (X Y r : Nat) (bs : List Byte) (p : Fin Config.dispW × Fin Config.dispH) :
    p ∈ spritePixels X Y r bs ↔
      ∃ k < bs.length, ∃ j < 8, (bs.getD k 0x00#8).getLsbD (7 - j) = true ∧ p = (column X j, row Y (r + k)) := by
  induction bs generalizing r with
  | nil => simp [spritePixels]
  | cons b bs ih =>
    rw [spritePixels, List.mem_append, mem_rowPixels, ih]
    constructor
    · rintro (⟨j, hj, hb, rfl⟩ | ⟨k, hk, j, hj, hb, rfl⟩)
      · exact ⟨0, by simp, j, hj, hb, rfl⟩
      · exact ⟨k + 1, by simpa using hk, j, hj, hb, by rw [show r + (k + 1) = r + 1 + k by omega]⟩
    · rintro ⟨k, hk, j, hj, hb, rfl⟩
      cases k with
      | zero => exact .inl ⟨j, hj, hb, rfl⟩
      | succ k => exact .inr ⟨k, by simpa using hk, j, hj, hb, by rw [show r + (k + 1) = r + 1 + k by omega]⟩

theorem column_val (X j : Nat) : (column X j).val = (X + j) % 64 := rfl

theorem row_val (Y r : Nat) : (row Y r).val = (Y + r) % 32 := rfl

theorem column_inj {X j k : Nat} (hj : j < 64) (hk : k < 64) (h : column X j = column X k) : j = k := by
  have := congrArg Fin.val h
  rw [column_val, column_val] at this
  omega

theorem row_inj {Y r q : Nat} (h : row Y r = row Y q) (hr : r < q + 32) (hq : q < r + 32) : r = q := by
  have := congrArg Fin.val h
  rw [row_val, row_val] at this
  omega

/-- A sprite of at most DISP_H rows names no pixel twice (R211). -/
theorem spritePixels_nodup (X Y r : Nat) (bs : List Byte) (h : bs.length ≤ 32) :
    (spritePixels X Y r bs).Nodup := by
  induction bs generalizing r with
  | nil => exact List.nodup_nil
  | cons b bs ih =>
    rw [List.length_cons] at h
    rw [spritePixels, List.nodup_append]
    refine ⟨?_, ih (r + 1) (by omega), ?_⟩
    · refine List.Nodup.map_on ?_ (List.nodup_range.filter _)
      intro j hj k hk e
      have hj' := List.mem_range.1 (List.mem_of_mem_filter hj)
      have hk' := List.mem_range.1 (List.mem_of_mem_filter hk)
      exact column_inj (X := X) (by omega) (by omega) (congrArg Prod.fst e)
    · rintro p hp q hq rfl
      obtain ⟨j, -, -, rfl⟩ := (mem_rowPixels _ _ _ _ _).1 hp
      obtain ⟨k, hk, j', -, -, e⟩ := (mem_spritePixels _ _ _ _ _).1 hq
      have := row_inj (congrArg Prod.snd e) (by omega) (by omega)
      omega

/-! ### The key wait -/

theorem mem_qualifyingKeys (mode : Config.KeyWaitMode) (keys snap : KeySet) (k : RegIdx) :
    k ∈ qualifyingKeys mode keys snap ↔ keyQualifies mode keys snap k = true := by
  simp only [qualifyingKeys, List.mem_filter, List.mem_map, List.mem_range, and_iff_right_iff_imp]
  intro _
  exact ⟨k.toNat, k.isLt, by simp⟩

/-- A draw from a set takes a member of it (R12). -/
theorem drawMember_mem (n : Nat) (k0 : RegIdx) (ks : List RegIdx) : drawMember n k0 ks ∈ k0 :: ks := by
  have h : n % (ks.length + 1) < (k0 :: ks).length := by
    rw [List.length_cons]; exact Nat.mod_lt _ (Nat.succ_pos _)
  rw [drawMember, List.getD_eq_getElem?_getD, List.getElem?_eq_getElem h]
  exact List.getElem_mem h

/-- Every member is what some free number names, so the draw is under no law (R12, log 16). -/
theorem drawMember_surj (k0 : RegIdx) (ks : List RegIdx) (k : RegIdx) (hk : k ∈ k0 :: ks) :
    ∃ n, drawMember n k0 ks = k := by
  obtain ⟨n, hn, rfl⟩ := List.getElem_of_mem hk
  refine ⟨n, ?_⟩
  rw [List.length_cons] at hn
  rw [drawMember, Nat.mod_eq_of_lt hn, List.getD_eq_getElem?_getD, List.getElem?_eq_getElem (by simpa using hn)]
  rfl

end Sys2Proof.Machine
end

