-- ==== Sys2Proof/Laws/Exec.lean ====
section
/-! SUPPORT. What a step can answer: every instruction is one commit; the fetch; the moves of the machine. -/

namespace Sys2Proof.Machine

/-- Every meaning is one commit of its instruction's effect (R95). -/
theorem exec_is_commit (i : Instr) (s : State) : ∃ eff, exec i s = commit i s eff := by
  cases i <;> simp only [exec,
    execCls, execRet, execExit, execJp, execCall, execSeImm, execSneImm, execSeReg, execLdImm, execAddImm,
    execLdReg, execOr, execAnd, execXor, execAddReg, execSub, execShr, execSubn, execShl, execSneReg, execLdI,
    execJpV0, execRnd, execDrw, execSkp, execSknp, execLdVxDt, execLdVxK, execLdDtVx, execLdStVx, execAddI,
    execLdF, execLdB, execStRegs, execLdRegs] <;> exact ⟨_, rfl⟩

/-- An instruction's answer is a taken fault, or a committed working copy with its next pc in memory (R97). -/
theorem exec_cases (i : Instr) (s : State) :
    (∃ e, exec i s = takeFault e s) ∨
      ∃ (t : State) (npc : Nat) (r : Result), npc < Config.memSize ∧
        exec i s = .next { t with pc := BitVec.ofNat 16 npc, result := r } := by
  obtain ⟨eff, h⟩ := exec_is_commit i s
  rw [h]
  rcases commit_cases i s eff with ⟨t, npc, r, -, hn, hc⟩ | ⟨t, npc, r, -, -, hc⟩ | ⟨e, -, hc⟩
  · exact .inr ⟨t, npc, r, hn, hc⟩
  · exact .inl ⟨_, hc⟩
  · exact .inl ⟨_, hc⟩

/-! ### Fetch (R93) -/

theorem fetchWord_ok {s : State} (h : s.pcNat + 1 < Config.memSize) :
    fetchWord s = .ok (wordOfBytes (s.mem.read s.pcNat) (s.mem.read (s.pcNat + 1))) := by
  rw [fetchWord, Memory.checkedRead_ok (by omega), Memory.checkedRead_ok h]

/-! ### The order of one step (R96, R254) -/

theorem engineStep_faulted {s : State} {e : Fault} (h : s.status = .faulted e) : engineStep s = returnFault e s := by
  rw [engineStep, h]

theorem engineStep_running {s : State} (h : s.status = .running) :
    engineStep s = if s.runnable then runInstruction s else returnFault .noProgramLoaded s := by
  rw [engineStep, h]

theorem engineStep_awaiting {s : State} {x : RegIdx} (h : s.status = .awaitingKey x) :
    engineStep s = if s.runnable then keyWaitCheck Config.keyWaitMode x s else returnFault .noProgramLoaded s := by
  rw [engineStep, h]

theorem runnable_eq_false {s : State} :
    s.runnable = false ↔ s.mem.fontLoaded = false ∨ s.mem.programLoaded = false := Bool.and_eq_false_iff

/-- Everything one step can be (R96, R254): a fault returned with nothing changed, by a faulted engine or by the gate, a
check of a pending wait, or an instruction. -/
theorem engineStep_cases (s : State) :
    (∃ e, s.status = .faulted e ∧ engineStep s = returnFault e s) ∨
    ((∀ e, s.status ≠ .faulted e) ∧ s.runnable = false ∧ engineStep s = returnFault .noProgramLoaded s) ∨
    (∃ x, s.status = .awaitingKey x ∧ s.runnable = true ∧ engineStep s = keyWaitCheck Config.keyWaitMode x s) ∨
    (s.status = .running ∧ s.runnable = true ∧ engineStep s = runInstruction s) := by
  cases h : s.status with
  | faulted e => exact .inl ⟨e, rfl, engineStep_faulted h⟩
  | awaitingKey x =>
    rw [engineStep_awaiting h]
    cases hr : s.runnable with
    | true => exact .inr (.inr (.inl ⟨x, rfl, rfl, rfl⟩))
    | false => exact .inr (.inl ⟨fun _ => nofun, rfl, rfl⟩)
  | running =>
    rw [engineStep_running h]
    cases hr : s.runnable with
    | true => exact .inr (.inr (.inr ⟨rfl, rfl, rfl⟩))
    | false => exact .inr (.inl ⟨fun _ => nofun, rfl, rfl⟩)

/-- Everything one check of a pending wait can answer (R236). -/
theorem keyWaitCheck_cases (mode : Config.KeyWaitMode) (x : RegIdx) (s : State) :
    (qualifyingKeys mode s.keys s.ksnap = [] ∧
      keyWaitCheck mode x s = .next { s with ksnap := s.keys, result := .continued }) ∨
      ∃ k ∈ qualifyingKeys mode s.keys s.ksnap, keyWaitCheck mode x s = completeWait x k s := by
  cases h : qualifyingKeys mode s.keys s.ksnap with
  | nil => exact .inl ⟨rfl, by rw [keyWaitCheck, h]⟩
  | cons k0 ks => exact .inr ⟨_, drawMember_mem (Config.setChoice s.draws) k0 ks, by rw [keyWaitCheck, h]⟩

/-- Everything the fetch and execution of an instruction can answer (R96): what the decoded instruction answers, or a
taken fault that some rule raises. -/
theorem runInstruction_cases (s : State) :
    (∃ w i, fetchWord s = .ok w ∧ decodeWord w = some i ∧ runInstruction s = exec i s) ∨
    (∃ w, fetchWord s = .ok w ∧ decodeWord w = none ∧ runInstruction s = takeFault (.invalidOpcode s.pc w) s) ∨
    (∃ a, fetchWord s = .error a ∧ runInstruction s = takeFault (.outOfBounds s.pc none a) s) := by
  cases hf : fetchWord s with
  | error a => exact .inr (.inr ⟨a, rfl, by rw [runInstruction, hf]⟩)
  | ok w =>
    cases hd : decodeWord w with
    | none => exact .inr (.inl ⟨w, rfl, hd, by rw [runInstruction, hf]; simp only [execWord, hd]⟩)
    | some i => exact .inl ⟨w, i, rfl, hd, by rw [runInstruction, hf]; simp only [execWord, hd]⟩

theorem step_of_empty {s : State} (h : s.schedule = []) : step s = engineStep s := by
  rw [step, machineStep, h]

theorem step_of_call {s : State} {c : HostCall} {rest : List HostCall} (h : s.schedule = c :: rest) :
    step s = hostCall c { s with schedule := rest } := by
  rw [step, machineStep, h]

end Sys2Proof.Machine
end

