-- ==== Sys2Proof/Laws/PerInstr.lean ====
section
/-! SUPPORT. The family MajorNibble: the major opcode of every instruction's word is its family's (30_encoding.md R99,
R100). -/

namespace Sys2Proof.Laws.MajorNibble

/-- The major opcode `a` of an instruction's pattern (R100). -/
def ofInstr : Instr → BitVec 4
  | .cls | .ret | .exit _ => 0x0#4
  | .jp _ => 0x1#4
  | .call _ => 0x2#4
  | .seImm _ _ => 0x3#4
  | .sneImm _ _ => 0x4#4
  | .seReg _ _ => 0x5#4
  | .ldImm _ _ => 0x6#4
  | .addImm _ _ => 0x7#4
  | .ldReg _ _ | .or _ _ | .and _ _ | .xor _ _ | .addReg _ _ | .sub _ _ | .shr _ _ | .subn _ _ | .shl _ _ => 0x8#4
  | .sneReg _ _ => 0x9#4
  | .ldI _ => 0xA#4
  | .jpV0 _ => 0xB#4
  | .rnd _ _ => 0xC#4
  | .drw _ _ _ => 0xD#4
  | .skp _ | .sknp _ => 0xE#4
  | .ldVxDt _ | .ldVxK _ | .ldDtVx _ | .ldStVx _ | .addI _ | .ldF _ | .ldB _ | .stRegs _ | .ldRegs _ => 0xF#4

/-- The word of `i` carries the major opcode of its family. -/
def Statement (i : Instr) : Prop := fieldA (encode i) = ofInstr i

theorem cls : Statement .cls := by unfold Statement; decide
theorem ret : Statement .ret := by unfold Statement; decide
theorem exit (nnn : Addr12) : Statement (.exit nnn) := by simp [Statement, encode, ofInstr]
theorem jp (nnn : Addr12) : Statement (.jp nnn) := by simp [Statement, encode, ofInstr]
theorem call (nnn : Addr12) : Statement (.call nnn) := by simp [Statement, encode, ofInstr]
theorem seImm (x : RegIdx) (nn : Byte) : Statement (.seImm x nn) := by simp [Statement, encode, ofInstr]
theorem sneImm (x : RegIdx) (nn : Byte) : Statement (.sneImm x nn) := by simp [Statement, encode, ofInstr]
theorem seReg (x y : RegIdx) : Statement (.seReg x y) := by simp [Statement, encode, ofInstr]
theorem ldImm (x : RegIdx) (nn : Byte) : Statement (.ldImm x nn) := by simp [Statement, encode, ofInstr]
theorem addImm (x : RegIdx) (nn : Byte) : Statement (.addImm x nn) := by simp [Statement, encode, ofInstr]
theorem ldReg (x y : RegIdx) : Statement (.ldReg x y) := by simp [Statement, encode, ofInstr]
theorem or (x y : RegIdx) : Statement (.or x y) := by simp [Statement, encode, ofInstr]
theorem and (x y : RegIdx) : Statement (.and x y) := by simp [Statement, encode, ofInstr]
theorem xor (x y : RegIdx) : Statement (.xor x y) := by simp [Statement, encode, ofInstr]
theorem addReg (x y : RegIdx) : Statement (.addReg x y) := by simp [Statement, encode, ofInstr]
theorem sub (x y : RegIdx) : Statement (.sub x y) := by simp [Statement, encode, ofInstr]
theorem shr (x y : RegIdx) : Statement (.shr x y) := by simp [Statement, encode, ofInstr]
theorem subn (x y : RegIdx) : Statement (.subn x y) := by simp [Statement, encode, ofInstr]
theorem shl (x y : RegIdx) : Statement (.shl x y) := by simp [Statement, encode, ofInstr]
theorem sneReg (x y : RegIdx) : Statement (.sneReg x y) := by simp [Statement, encode, ofInstr]
theorem ldI (nnn : Addr12) : Statement (.ldI nnn) := by simp [Statement, encode, ofInstr]
theorem jpV0 (nnn : Addr12) : Statement (.jpV0 nnn) := by simp [Statement, encode, ofInstr]
theorem rnd (x : RegIdx) (nn : Byte) : Statement (.rnd x nn) := by simp [Statement, encode, ofInstr]
theorem drw (x y : RegIdx) (n : BitVec 4) : Statement (.drw x y n) := by simp [Statement, encode, ofInstr]
theorem skp (x : RegIdx) : Statement (.skp x) := by simp [Statement, encode, ofInstr]
theorem sknp (x : RegIdx) : Statement (.sknp x) := by simp [Statement, encode, ofInstr]
theorem ldVxDt (x : RegIdx) : Statement (.ldVxDt x) := by simp [Statement, encode, ofInstr]
theorem ldVxK (x : RegIdx) : Statement (.ldVxK x) := by simp [Statement, encode, ofInstr]
theorem ldDtVx (x : RegIdx) : Statement (.ldDtVx x) := by simp [Statement, encode, ofInstr]
theorem ldStVx (x : RegIdx) : Statement (.ldStVx x) := by simp [Statement, encode, ofInstr]
theorem addI (x : RegIdx) : Statement (.addI x) := by simp [Statement, encode, ofInstr]
theorem ldF (x : RegIdx) : Statement (.ldF x) := by simp [Statement, encode, ofInstr]
theorem ldB (x : RegIdx) : Statement (.ldB x) := by simp [Statement, encode, ofInstr]
theorem stRegs (x : RegIdx) : Statement (.stRegs x) := by simp [Statement, encode, ofInstr]
theorem ldRegs (x : RegIdx) : Statement (.ldRegs x) := by simp [Statement, encode, ofInstr]

end Sys2Proof.Laws.MajorNibble
end

