-- ==== Sys2Proof/Tests/Slice0.lean ====
section
/-! SUPPORT. Tests, their expected results taken from the vectors of 95_test_vectors.md (named by their ids) or worked by
hand from the rule named; and for every obligation with hypotheses a witness that meets them. -/

namespace Sys2Proof.Tests
open Sys2Proof.Machine Sys2Proof.Spec

/-! ### Well-formedness: the two ill-formed terms (R104) -/

theorem test_wf_exit_0E0_refused : (Instr.exit 0x0E0).wellFormed = false := by decide
theorem test_wf_exit_0EE_refused : (Instr.exit 0x0EE).wellFormed = false := by decide
theorem test_wf_exit_0E1_accepted : (Instr.exit 0x0E1).wellFormed = true := by decide
theorem test_wf_encode_of_ill_formed_is_another : decodeWord (encode (.exit 0x0EE)) = some .ret := by decide

/-! ### Decoding: one word of every row, written from the pattern column of R100 -/

theorem test_decode_family_0 : decode [0x00, 0xE0] = .instr .cls [] ∧ decode [0x00, 0xEE] = .instr .ret [] ∧
    decode [0x00, 0x00] = .instr (.exit 0x000) [] ∧ decode [0x0F, 0xE0] = .instr (.exit 0xFE0) [] := by decide
theorem test_decode_addresses : decode [0x1A, 0xBC] = .instr (.jp 0xABC) [] ∧
    decode [0x2A, 0xBC] = .instr (.call 0xABC) [] ∧ decode [0xAA, 0xBC] = .instr (.ldI 0xABC) [] ∧
    decode [0xBA, 0xBC] = .instr (.jpV0 0xABC) [] := by decide
theorem test_decode_immediates : decode [0x3A, 0xBC] = .instr (.seImm 0xA 0xBC) [] ∧
    decode [0x4A, 0xBC] = .instr (.sneImm 0xA 0xBC) [] ∧ decode [0x6A, 0xBC] = .instr (.ldImm 0xA 0xBC) [] ∧
    decode [0x7A, 0xBC] = .instr (.addImm 0xA 0xBC) [] ∧ decode [0xCA, 0xBC] = .instr (.rnd 0xA 0xBC) [] := by decide
theorem test_decode_pairs : decode [0x5A, 0xB0] = .instr (.seReg 0xA 0xB) [] ∧
    decode [0x9A, 0xB0] = .instr (.sneReg 0xA 0xB) [] := by decide
theorem test_decode_family_8 : decode [0x8A, 0xB0] = .instr (.ldReg 0xA 0xB) [] ∧
    decode [0x8A, 0xB1] = .instr (.or 0xA 0xB) [] ∧ decode [0x8A, 0xB2] = .instr (.and 0xA 0xB) [] ∧
    decode [0x8A, 0xB3] = .instr (.xor 0xA 0xB) [] ∧ decode [0x8A, 0xB4] = .instr (.addReg 0xA 0xB) [] ∧
    decode [0x8A, 0xB5] = .instr (.sub 0xA 0xB) [] ∧ decode [0x8A, 0xB6] = .instr (.shr 0xA 0xB) [] ∧
    decode [0x8A, 0xB7] = .instr (.subn 0xA 0xB) [] ∧ decode [0x8A, 0xBE] = .instr (.shl 0xA 0xB) [] := by decide
theorem test_decode_draw : decode [0xDA, 0xBC] = .instr (.drw 0xA 0xB 0xC) [] := by decide
theorem test_decode_keys : decode [0xEA, 0x9E] = .instr (.skp 0xA) [] ∧ decode [0xEA, 0xA1] = .instr (.sknp 0xA) [] := by
  decide
theorem test_decode_family_F : decode [0xFA, 0x07] = .instr (.ldVxDt 0xA) [] ∧
    decode [0xFA, 0x0A] = .instr (.ldVxK 0xA) [] ∧ decode [0xFA, 0x15] = .instr (.ldDtVx 0xA) [] ∧
    decode [0xFA, 0x18] = .instr (.ldStVx 0xA) [] ∧ decode [0xFA, 0x1E] = .instr (.addI 0xA) [] ∧
    decode [0xFA, 0x29] = .instr (.ldF 0xA) [] ∧ decode [0xFA, 0x33] = .instr (.ldB 0xA) [] ∧
    decode [0xFA, 0x55] = .instr (.stRegs 0xA) [] ∧ decode [0xFA, 0x65] = .instr (.ldRegs 0xA) [] := by decide
/-- E3, CF19. -/
theorem test_decode_illegal : [0x8008#16, 0x800F#16, 0x9001#16, 0xE000#16, 0xF000#16, 0xF0FF#16, 0x5121#16].map decodeWord =
    List.replicate 7 none := by decide
theorem test_decode_short : decode [0x12] = .truncated ∧ decode [0x12, 0x34, 0x56] = .instr (.jp 0x234) [0x56] := by decide

/-! ### States for one step -/

/-- The base state of 95_test_vectors.md Part 0 with word `w` at 0x200. -/
def base (w : Nat) : State := State.reset.withFetchWord 16 w

/-- The same with the pc, and the word, at `p`. -/
def baseAt (p : Word) (w : Nat) : State := { State.reset with pc := p }.withFetchWord 16 w

/-- Registers set. -/
def withV (s : State) (f : List (RegIdx × Byte)) : State := f.foldl (fun s p => s.setV p.1 p.2) s

/-- I set, and bytes at it. -/
def withI (s : State) (a : Word) (bytes : List Byte) : State :=
  { s with index := a, mem := s.mem.writeBytes a.toNat bytes }

/-- One key pressed. -/
def oneKey (k : RegIdx) : KeySet := KeySet.none.set k.toNat true k.isLt

/-- What `f` sees after one step, if there is a next state. -/
def after {α : Type} (f : State → α) (s : State) : Option α :=
  match step s with
  | .next t => some (f t)
  | .fault _ | .refused _ => none

/-- The result of one step. -/
def returned (s : State) : Option Result := after (·.result) s

/-! ### Step and faults -/

/-- S8a, S8b, S8c: the fault is returned, the status stays. -/
theorem test_gate : after (fun t => (t.result, t.status)) State.reset = some (.faulted .noProgramLoaded, .running) ∧
    after (fun t => (t.result, t.status)) (hostLoadFont [0x01] State.reset) =
      some (.faulted .noProgramLoaded, .running) ∧
    after (fun t => (t.result, t.pc)) (hostLoadProgram [0x60, 0x00] State.reset) =
      some (.faulted .noProgramLoaded, 0x200) := by decide
/-- P7: after the refused step the host loads a font. -/
theorem test_gate_then_load : after (·.schedule) { State.reset with schedule := [.step, .loadFont [0x01], .step] } =
    some [.loadFont [0x01], .step] := by decide
/-- S9: the fault carries the pc and the raw word; the pc stays. -/
theorem test_invalid_opcode : after (fun t => (t.status, t.pc)) (base 0x5001) =
    some (.faulted (.invalidOpcode 0x200 0x5001), 0x200) := by decide
/-- E2. -/
theorem test_fetch_past_the_end : after (·.status) { base 0x00E0 with pc := 0xFFF } =
    some (.faulted (.outOfBounds 0xFFF none 0x1000)) := by decide
/-- EX1; the host's next call is made. -/
theorem test_sticky : after (fun t => (t.result, t.status, t.schedule)) { base 0x00E0 with
    status := .faulted (.invalidOpcode 0x200 0x5001), schedule := [.step, .reset] } =
    some (.faulted (.invalidOpcode 0x200 0x5001), .faulted (.invalidOpcode 0x200 0x5001), [.reset]) := by decide
/-- EX2, TI18: ticks go on in every status. -/
theorem test_tick : after (fun t => (t.dt, t.st)) { base 0x00E0 with
    dt := 3, schedule := [.tick], status := .faulted (.invalidOpcode 0x200 0x5001) } = some (2, 0) := by decide
/-- EX3, EX6. -/
theorem test_reset_keeps_the_latch : after (fun t => (t.mem, t.pc, t.status, t.keys.pressed 3))
    { base 0x5001 with keys := oneKey 3, schedule := [.reset], status := .faulted (.invalidOpcode 0x200 0x5001) } =
    some ([], 0x200, .running, true) := by decide
/-- R73 with the contract of R62 (log 19). -/
theorem test_read_byte : (readByte (base 0x6A9D) 0x201 = .ok 0x9D) ∧ readByte (base 0x6A9D) 0x1000 = .error 0x1000 :=
  ⟨rfl, rfl⟩
/-- EX7. -/
theorem test_load_refused : after (fun t => (t.mem, t.result, t.status)) { State.reset with
    schedule := [.load 0xFFF [1, 2]] } = some ([], .loadOutOfBounds, .running) := by decide
/-- EX4, EX5: priority before the next-pc check. -/
theorem test_priority : returned (withV (baseAt 0xFFE 0xF129) [(1, 0x10)]) =
      some (.faulted (.operandOutOfRange 0xFFE 0xF129 0x10)) ∧
    returned (baseAt 0xFFE 0x5001) = some (.faulted (.invalidOpcode 0xFFE 0x5001)) := by decide

/-! ### Control flow -/

/-- CF1. -/
theorem test_ret : after (fun t => (t.pc, t.sp.val))
    { baseAt 0x300 0x00EE with sp := 1, stack := State.reset.stack.set 0 0x202 } = some (0x202, 0) := by decide
/-- S12, CF2. -/
theorem test_ret_faults : returned (base 0x00EE) = some (.faulted (.stackUnderflow 0x200 0x00EE)) ∧
    after (fun t => (t.result, t.sp.val)) { base 0x00EE with sp := 1, stack := State.reset.stack.set 0 0x1000 } =
      some (.faulted (.outOfBounds 0x200 (some 0x00EE) 0x1000), 1) := by decide
/-- S13, CF3. -/
theorem test_exit : after (fun t => (t.result, t.pc, t.status)) (baseAt 0x204 0x0123) =
    some (.halted 0x123, 0x206, .running) ∧ after (fun t => (t.result, t.pc)) (base 0x0000) =
    some (.halted 0x000, 0x202) := by decide
/-- CF5. -/
theorem test_exit_at_the_end : returned (baseAt 0xFFE 0x0123) =
    some (.faulted (.outOfBounds 0xFFE (some 0x0123) 0x1000)) := by decide
/-- CF6, CF7. -/
theorem test_jp : after (·.pc) (base 0x1234) = some 0x234 ∧ after (·.pc) (base 0x1201) = some 0x201 := by decide
/-- CF9, CF11. -/
theorem test_call : after (fun t => (t.stack[0], t.sp.val, t.pc)) (base 0x2300) = some (0x202, 1, 0x300) ∧
    after (fun t => (t.stack[0], t.sp.val, t.pc)) (baseAt 0xFFE 0x2300) = some (0x1000, 1, 0x300) := by decide
/-- CF10. -/
theorem test_call_full : after (fun t => (t.result, t.sp.val)) { base 0x2300 with sp := 16 } =
    some (.faulted (.stackOverflow 0x200 0x2300), 16) := by decide
/-- CF12, CF13. -/
theorem test_se_imm : after (·.pc) (withV (base 0x3342) [(3, 0x42)]) = some 0x204 ∧
    after (·.pc) (withV (base 0x3342) [(3, 0x41)]) = some 0x202 := by decide
/-- CF14. -/
theorem test_se_imm_at_the_end : returned (withV (baseAt 0xFFC 0x3342) [(3, 0x42)]) =
    some (.faulted (.outOfBounds 0xFFC (some 0x3342) 0x1000)) := by decide
/-- CF15, CF16. -/
theorem test_sne_imm : after (·.pc) (withV (base 0x4342) [(3, 0x41)]) = some 0x204 ∧
    after (·.pc) (withV (base 0x4342) [(3, 0x42)]) = some 0x202 := by decide
/-- CF17; unequal from R137. -/
theorem test_se_reg : after (·.pc) (withV (base 0x5120) [(1, 7), (2, 7)]) = some 0x204 ∧
    after (·.pc) (withV (base 0x5120) [(1, 7), (2, 8)]) = some 0x202 := by decide
/-- CF20, CF21. -/
theorem test_sne_reg : after (·.pc) (withV (base 0x9120) [(1, 7), (2, 8)]) = some 0x204 ∧
    after (·.pc) (base 0x9110) = some 0x202 := by decide
/-- CF26, CF24. -/
theorem test_jp_v0 : after (·.pc) (withV (base 0xB300) [(0, 5), (3, 9)]) = some 0x305 ∧
    after (·.pc) (base 0xBFFF) = some 0xFFF := by decide
/-- CF23. -/
theorem test_jp_v0_past_the_end : after (fun t => (t.result, t.pc)) (withV (base 0xBF80) [(0, 0xFF)]) =
    some (.faulted (.outOfBounds 0x200 (some 0xBF80) 0x107F), 0x200) := by decide

/-! ### Register loads and arithmetic: `Vx`, `VF`, pc -/

/-- What a register test looks at. -/
def regs (x : RegIdx) (s : State) : Option (Byte × Byte × Word) := after (fun t => (t.getV x, t.getV 0xF, t.pc)) s

/-- AL1, AL2. -/
theorem test_ld_imm : regs 0xA (base 0x6A9D) = some (0x9D, 0, 0x202) ∧
    regs 0xF (withV (base 0x6F00) [(0xF, 0x33)]) = some (0, 0, 0x202) := by decide
/-- S2, AL4. -/
theorem test_add_imm : regs 2 (withV (base 0x720A) [(2, 250), (0xF, 0x77)]) = some (4, 0x77, 0x202) ∧
    regs 0xF (withV (base 0x7F01) [(0xF, 0xFF)]) = some (0, 0, 0x202) := by decide
/-- S1. -/
theorem test_ld_reg : after (fun t => (t.getV 3, t.getV 7)) (withV (base 0x8370) [(3, 0x5A), (7, 0x11)]) =
    some (0x11, 0x11) := by decide
/-- AL5. -/
theorem test_or : regs 1 (withV (base 0x8121) [(1, 0x0F), (2, 0xF0), (0xF, 0x55)]) = some (0xFF, 0x55, 0x202) := by decide
/-- AL6. -/
theorem test_and : regs 1 (withV (base 0x8122) [(1, 0x3C), (2, 0x0F), (0xF, 0x55)]) = some (0x0C, 0x55, 0x202) := by
  decide
/-- AL7. -/
theorem test_xor : regs 1 (withV (base 0x8123) [(1, 0x3C), (2, 0x0F), (0xF, 0x55)]) = some (0x33, 0x55, 0x202) := by
  decide
/-- S3a, AL10, AL13. -/
theorem test_add_reg : regs 0 (withV (base 0x8014) [(0, 200), (1, 100)]) = some (44, 1, 0x202) ∧
    regs 1 (withV (base 0x8124) [(1, 128), (2, 128)]) = some (0, 1, 0x202) ∧
    regs 1 (withV (base 0x81F4) [(1, 3), (0xF, 5)]) = some (8, 0, 0x202) := by decide
/-- AL9, AL12. -/
theorem test_add_reg_edges : regs 1 (withV (base 0x8124) [(1, 255), (0xF, 9)]) = some (255, 0, 0x202) ∧
    regs 0xF (withV (base 0x8F14) [(0xF, 0xFF), (1, 1)]) = some (1, 1, 0x202) := by decide
/-- S4a, S4b. -/
theorem test_sub : regs 0 (withV (base 0x8015) [(0, 50), (1, 20)]) = some (30, 1, 0x202) ∧
    regs 0 (withV (base 0x8015) [(0, 10), (1, 20)]) = some (246, 0, 0x202) := by decide
/-- AL14, AL15. -/
theorem test_sub_edges : regs 1 (withV (base 0x8125) [(1, 20), (2, 20)]) = some (0, 1, 0x202) ∧
    regs 0xF (withV (base 0x8F15) [(0xF, 10), (1, 20)]) = some (0, 0, 0x202) := by decide
/-- AL16, AL17. -/
theorem test_shr : regs 1 (withV (base 0x8106) [(1, 5)]) = some (2, 1, 0x202) ∧
    regs 1 (withV (base 0x81A6) [(1, 4), (0xA, 1)]) = some (2, 0, 0x202) := by decide
/-- AL18, AL24, in the three readings. -/
theorem test_shift_of_vf :
    [.sequential, .operandsFirst, .flagLast].map (fun m =>
      ((withV (base 0) [(0xF, 0x81)]).setShift m regF lowBit (· >>> 1)).getV regF) = [0x00, 0x40, 0x01] ∧
    [.sequential, .operandsFirst, .flagLast].map (fun m =>
      ((withV (base 0) [(0xF, 0xC1)]).setShift m regF highBit (· <<< 1)).getV regF) = [0x02, 0x82, 0x01] := by decide
/-- AL19, AL20. -/
theorem test_subn : regs 0 (withV (base 0x8017) [(0, 20), (1, 50)]) = some (30, 1, 0x202) ∧
    regs 0 (withV (base 0x8017) [(0, 20), (1, 10)]) = some (246, 0, 0x202) := by decide
/-- AL22, AL23. -/
theorem test_shl : regs 1 (withV (base 0x810E) [(1, 0x81)]) = some (2, 1, 0x202) ∧
    regs 1 (withV (base 0x810E) [(1, 0x40)]) = some (0x80, 0, 0x202) := by decide
/-- AL25, AL27 with the draw left free. -/
theorem test_rnd : after (·.getV 3) (base 0xC30F) = some (Config.randomByte 0 &&& 0x0F) := rfl
theorem test_rnd_advances : after (fun t => (t.pc, t.draws, t.getV 0xF)) (base 0xC3FF) = some (0x202, 1, 0) := by decide

/-! ### Index register and memory -/

/-- IM1, IM2. -/
theorem test_ld_i : after (·.index) (base 0xA300) = some 0x300 ∧ after (·.index) (base 0xAFFF) = some 0xFFF := by decide
/-- IM4, IM5. -/
theorem test_add_i : after (fun t => (t.index, t.getV 0xF)) (withV (withI (base 0xF11E) 0xFFF []) [(1, 1)]) =
      some (0x1000, 0) ∧
    after (·.index) (withV { base 0xF11E with index := 0xFFFF } [(1, 1)]) = some 0 := by decide
/-- IM6. -/
theorem test_ld_f : after (·.index) (withV (base 0xFA29) [(0xA, 0xA)]) = some 0x032 := by decide
/-- IM8. -/
theorem test_ld_f_range : after (fun t => (t.result, t.index)) (withV (withI (base 0xF129) 0x300 []) [(1, 0x10)]) =
    some (.faulted (.operandOutOfRange 0x200 0xF129 0x10), 0x300) := by decide
/-- S6, IM11. -/
theorem test_ld_b : after (fun t => (t.mem.readBytes 0x300 3, t.index)) (withV (withI (base 0xF533) 0x300 []) [(5, 157)]) =
      some ([1, 5, 7], 0x300) ∧
    after (fun t => t.mem.readBytes 0xFFD 3) (withV (withI (base 0xF533) 0xFFD []) [(5, 42)]) = some [0, 4, 2] := by decide
/-- IM12, IM13. -/
theorem test_ld_b_faults : after (fun t => (t.result, t.mem.readBytes 0xFFE 2))
      (withV (withI (base 0xF533) 0xFFE [8, 9]) [(5, 42)]) =
      some (.faulted (.outOfBounds 0x200 (some 0xF533) 0x1000), [8, 9]) ∧
    returned { base 0xF533 with index := 0x1005 } = some (.faulted (.outOfBounds 0x200 (some 0xF533) 0x1005)) := by decide
/-- IM14; step 1 of S7. -/
theorem test_st_regs : after (fun t => (t.mem.readBytes 0x300 2, t.index))
      (withV (withI (base 0xF055) 0x300 []) [(0, 0xAB), (1, 0xCD)]) = some ([0xAB, 0], 0x300) ∧
    after (fun t => t.mem.readBytes 0x400 3)
      (withV (withI (base 0xF255) 0x400 []) [(0, 0x11), (1, 0x22), (2, 0x33)]) = some [0x11, 0x22, 0x33] := by decide
/-- IM16. -/
theorem test_st_regs_fault : returned (withI (base 0xFF55) 0xFF1 []) =
    some (.faulted (.outOfBounds 0x200 (some 0xFF55) 0x1000)) := by decide
/-- The example of R195; V3 is above the block. -/
theorem test_ld_regs : after (fun t => (t.getV 0, t.getV 1, t.getV 2, t.getV 3, t.index))
    (withV (withI (base 0xF265) 0x300 [1, 5, 7, 9]) [(3, 4)]) = some (1, 5, 7, 4, 0x300) := by decide
/-- IM18. -/
theorem test_ld_regs_fault : after (fun t => (t.result, t.getV 0, t.getV 1))
    (withV (withI (base 0xF165) 0xFFF [3]) [(0, 7), (1, 9)]) =
    some (.faulted (.outOfBounds 0x200 (some 0xF165) 0x1000), 7, 9) := by decide

/-! ### Display -/

/-- The state with pixel `(x, y)` set, then `I = a` and bytes there. -/
def pixelAt (w : Nat) (x : Fin 64) (y : Fin 32) (a : Word) (bytes : List Byte) : State :=
  withI { base w with disp := Display.blank.flip x y } a bytes

/-- DS1. -/
theorem test_cls : after (fun t => (decide (t.disp = Display.blank), t.getV 0xF))
    (withV (pixelAt 0x00E0 3 4 0 []) [(0xF, 0x44)]) = some (true, 0x44) := by decide
/-- P4 of Part 3, step 4: wrap on both axes, bit 7 leftmost. -/
theorem test_drw_wraps : after (fun t => ([(62, 31), (63, 31), (62, 0), (5, 0), (0, 31), (63, 0)].map fun p =>
      t.disp.pixel p.1 p.2, t.getV 0xF)) (withV (withI (base 0xD012) 0x20C [0xC0, 0x81]) [(0, 62), (1, 31)]) =
    some ([true, true, true, true, false, false], 0) := by decide
/-- DS3, DS4. -/
theorem test_drw_collision : after (fun t => (t.disp.pixel 0 0, t.getV 0xF)) (pixelAt 0xD011 0 0 0x300 [0x80]) =
      some (false, 1) ∧
    after (fun t => (t.disp.pixel 0 0, t.disp.pixel 1 0, t.getV 0xF)) (pixelAt 0xD011 1 0 0x300 [0x80]) =
      some (true, true, 0) := by decide

/-! ### Timers and input -/

/-- TI1. -/
theorem test_ld_vx_dt : after (·.getV 1) { base 0xF107 with dt := 3 } = some 3 := by decide
/-- TI2. -/
theorem test_ld_dt : after (fun t => (t.dt, t.st)) (withV (base 0xF015) [(0, 5)]) = some (5, 0) := by decide
/-- TI3. -/
theorem test_ld_st : after (fun t => (t.st, t.dt, soundActive t)) (withV (base 0xF218) [(2, 10)]) = some (10, 0, true) := by
  decide
/-- TI6, TI7. -/
theorem test_skp : after (·.pc) (withV { base 0xE49E with keys := oneKey 0xB } [(4, 0xB)]) = some 0x204 ∧
    after (·.pc) (withV (base 0xE49E) [(4, 0xB)]) = some 0x202 := by decide
/-- TI8. -/
theorem test_skp_range : returned (withV (base 0xE49E) [(4, 0x10)]) =
    some (.faulted (.operandOutOfRange 0x200 0xE49E 0x10)) := by decide
/-- TI9, TI10. -/
theorem test_sknp : after (·.pc) (withV (base 0xE4A1) [(4, 0xB)]) = some 0x204 ∧
    after (·.pc) (withV { base 0xE4A1 with keys := oneKey 0xB } [(4, 0xB)]) = some 0x202 := by decide
/-- TI11. -/
theorem test_key_wait_starts : after (fun t => (t.status, t.pc, t.ksnap.pressed 5)) { base 0xF30A with keys := oneKey 5 } =
    some (.awaitingKey 3, 0x200, true) := by decide

/-- Waiting for a key into V3, key 0xB pressed since. -/
def pressed : State := { base 0xF30A with status := .awaitingKey 3, keys := oneKey 0xB }

/-- TI12. -/
theorem test_key_wait_completes : after (fun t => (t.status, t.pc, t.result)) pressed =
    some (.running, 0x202, .continued) := by decide
theorem test_key_wait_takes_the_key : after (·.getV 3) pressed = some 0x0B := by
  have h : after (·.getV 3) pressed = some ((drawMember (Config.setChoice 0) 0xB []).setWidth 8) := rfl
  rw [h, drawMember]
  simp [Nat.mod_one]
/-- TI14: a held key, in both readings. -/
theorem test_held_key : qualifyingKeys .edge (oneKey 5) (oneKey 5) = [] ∧
    qualifyingKeys .level (oneKey 5) (oneKey 5) = [5] := by decide
/-- TI17. -/
theorem test_key_wait_at_the_end : after (fun t => (t.result, t.getV 3))
    { baseAt 0xFFE 0xF30A with status := .awaitingKey 3, keys := oneKey 1 } =
    some (.faulted (.outOfBounds 0xFFE (some 0xF30A) 0x1000), 0) := by decide

/-! ### Witnesses: for each obligation with hypotheses, inputs that meet them, clause by clause -/

theorem witness_PatternsDecodeToTheirInstructions :
    (∀ n ∈ [0x0DF#12, 0x0E1#12, 0x0ED#12, 0x0EF#12, 0xFFF#12], n ≠ 0x0E0#12 ∧ n ≠ 0x0EE#12) ∧
    Illegal 0x5001 ∧ Illegal 0x8008 ∧ Illegal 0x9FFF ∧ Illegal 0xE0A0 ∧ Illegal 0xFFFF ∧ ¬Illegal 0x5000 := by
  refine ⟨by decide, ?_, ?_, ?_, ?_, ?_, ?_⟩ <;> simp [Illegal]

theorem witness_DecodeOfEncodedInstruction : (Instr.exit 0x0E1).wellFormed = true ∧ (Instr.exit 0x0ED).wellFormed = true ∧
    (Instr.drw 0xF 0xF 0xF).wellFormed = true := by decide

theorem witness_EncodeOfDecodedWord : decodeWord 0x8FA6 = some (.shr 0xF 0xA) ∧ decodeWord 0x00EF = some (.exit 0x0EF) := by
  decide

theorem witness_FetchIsBigEndianAndBounded : (baseAt 0xFFE 0x00E0).pcNat + 1 < Config.memSize ∧
    Ready { base 0x00E0 with pc := 0xFFF } ∧
    Config.memSize ≤ State.pcNat { base 0x00E0 with pc := 0xFFF } + 1 ∧
    Config.memSize ≤ State.pcNat { base 0x00E0 with pc := 0xFFFF } + 1 := by
  unfold Ready; decide

/-- An instruction in the last two bytes of memory, the state written out. -/
def lastWord (hi lo : Byte) : State :=
  { State.reset with pc := 0xFFE, mem := [(0x000, 0x01), (0xFFE, hi), (0xFFF, lo)] }

theorem witness_StepRunsDecodedInstruction : (lastWord 0x80 0x16).status = .running ∧
    (lastWord 0x80 0x16).mem.fontLoaded = true ∧ (lastWord 0x80 0x16).mem.programLoaded = true ∧
    (lastWord 0x80 0x16).pcNat + 1 < Config.memSize ∧
    decode [(lastWord 0x80 0x16).mem.read 0xFFE, (lastWord 0x80 0x16).mem.read 0xFFF] = .instr (.shr 0x0 0x1) [] ∧
    (lastWord 0x80 0x16).pcNat = 0xFFE ∧ (lastWord 0x80 0x16).schedule = [] ∧
    { lastWord 0x80 0x16 with schedule := [.step, .tick] }.schedule = .step :: [.tick] := by decide

theorem witness_IllegalWordRaisesInvalidOpcode : Ready (lastWord 0x50 0x01) ∧
    (lastWord 0x50 0x01).pcNat + 1 < Config.memSize ∧ (lastWord 0x50 0x01).pcNat = 0xFFE ∧
    wordOfBytes ((lastWord 0x50 0x01).mem.read 0xFFE) ((lastWord 0x50 0x01).mem.read 0xFFF) = 0x5001 ∧ Illegal 0x5001 := by
  simp only [Ready, Illegal]; decide

/-- A faulted engine. -/
def faulted : State := { base 0x00EE with status := .faulted (.stackUnderflow 0x200 0x00EE) }

theorem witness_FaultIsStickyUntilReset : faulted.status = .faulted (.stackUnderflow 0x200 0x00EE) ∧
    faulted.schedule = [] ∧ { faulted with schedule := [HostCall.step] }.schedule = .step :: [] ∧
    HostCall.reset ≠ .step ∧ HostCall.construct ≠ .step ∧
    (HostCall.tick ≠ .step ∧ HostCall.tick ≠ .reset ∧ HostCall.tick ≠ .construct) := by decide

theorem witness_GateRefusesUntilBothImagesLoaded :
    (∀ e, State.reset.status ≠ .faulted e) ∧ State.reset.schedule = [] ∧ State.reset.mem.fontLoaded = false ∧
    (hostLoadFont [1] State.reset).mem.programLoaded = false ∧
    (∀ e, { State.reset with status := .awaitingKey 3, schedule := [.step] }.status ≠ .faulted e) ∧
    { State.reset with status := .awaitingKey 3, schedule := [.step] }.schedule = .step :: [] := by
  refine ⟨?_, by decide, by decide, by decide, ?_, rfl⟩ <;> intro e <;> exact nofun

theorem witness_RaisedFaultIsPrecise : (∃ t, engineStep (lastWord 0x00 0xEE) = .next t ∧
      t.result = .faulted (.stackUnderflow 0xFFE 0x00EE)) ∧ Fault.stackUnderflow 0xFFE 0x00EE ≠ .noProgramLoaded ∧
    ∃ t, exec .ret State.reset = .next t ∧ t.result = .faulted (.stackUnderflow 0x200 0x00EE) :=
  ⟨⟨_, rfl, rfl⟩, by decide, ⟨_, rfl, rfl⟩⟩

/-- The pc at `p`, Vx = `b` for `x = 1`, I = `a`. -/
def spot (p : Word) (b : Byte) (a : Word) : State := { State.reset.setV 1 b with pc := p, index := a }

theorem witness_SequentialAdvancePastTheEndFaults :
    (Config.memSize ≤ (spot 0xFFE 0xF 0xFFD).pcNat + 2 ∧ Config.memSize ≤ (spot 0xFFFF 0 0).pcNat + 2) ∧
    ((spot 0xFFE 0xF 0xFFD).getV 1).toNat ≤ 0xF ∧ (spot 0xFFE 0xF 0xFFD).indexNat + 3 ≤ Config.memSize ∧
    (spot 0xFFE 0 0xFF0).indexNat + ((0xF#4).toNat + 1) ≤ Config.memSize ∧
    (0x0#4) = 0 ∧ (spot 0xFFE 0 0xFF1).indexNat + (0xF#4).toNat ≤ Config.memSize := by
  refine ⟨?_, ?_, ?_, ?_, ?_, ?_⟩ <;> decide

theorem witness_SkipPastTheEndFaults :
    (true = ((spot 0xFFC 7 0).getV 1 == 7) ∧ Config.memSize ≤ (spot 0xFFC 7 0).pcNat + 4) ∧
    (false = ((spot 0xFFE 7 0).getV 1 == 8) ∧ Config.memSize ≤ (spot 0xFFE 7 0).pcNat + 2) ∧
    (true = ((spot 0xFFC 7 0).getV 1 != 8) ∧ false = ((spot 0xFFE 7 0).getV 1 != 7)) ∧
    (true = ((spot 0xFFC 7 0).getV 1 == (spot 0xFFC 7 0).getV 1) ∧
      false = ((spot 0xFFE 7 0).getV 1 == (spot 0xFFE 7 0).getV 2)) ∧
    (true = ((spot 0xFFC 7 0).getV 1 != (spot 0xFFC 7 0).getV 2) ∧
      false = ((spot 0xFFE 7 0).getV 1 != (spot 0xFFE 7 0).getV 1)) ∧
    (((spot 0xFFC 0xF 0).getV 1).toNat ≤ 0xF ∧
      true = { spot 0xFFC 0xF 0 with keys := oneKey 0xF }.keys.pressed (((spot 0xFFC 0xF 0).getV 1).setWidth 4) ∧
      false = (spot 0xFFE 0xF 0).keys.pressed (((spot 0xFFE 0xF 0).getV 1).setWidth 4)) ∧
    (true = !(spot 0xFFC 0xF 0).keys.pressed (((spot 0xFFC 0xF 0).getV 1).setWidth 4) ∧
      false = !{ spot 0xFFE 0xF 0 with keys := oneKey 0xF }.keys.pressed
        (((spot 0xFFE 0xF 0).getV 1).setWidth 4)) := by
  refine ⟨?_, ?_, ?_, ?_, ?_, ?_, ?_⟩ <;> decide

/-- `sp` entries, the top ones all `w`. -/
def stacked (sp : Fin 17) (w : Word) : State := { State.reset with sp := sp, stack := Vector.replicate _ w }

theorem witness_ReturnPopsTheSavedAddress :
    ((stacked 1 0x202).sp.val = (0 : Fin 16).val + 1 ∧ ((stacked 1 0x202).stack.get 0).toNat < Config.memSize) ∧
    ((stacked 16 0xFFF).sp.val = (15 : Fin 16).val + 1 ∧ ((stacked 16 0xFFF).stack.get 15).toNat < Config.memSize) ∧
    ((stacked 16 0x1000).sp.val = (15 : Fin 16).val + 1 ∧ Config.memSize ≤ ((stacked 16 0x1000).stack.get 15).toNat) ∧
    (stacked 0 0).sp.val = 0 := by decide

theorem witness_CallPushesTheNextAddress : (stacked 0 0).sp.val < Config.stackDepth ∧
    (stacked 15 0).sp.val < Config.stackDepth ∧ (stacked 16 0).sp.val = Config.stackDepth := by decide

theorem witness_CallThenReturnComesBack : { stacked 15 0 with pc := 0xFFD }.sp.val < Config.stackDepth ∧
    State.pcNat { stacked 15 0 with pc := 0xFFD } + 2 < Config.memSize := by decide

/-- The one hypothesis of the statements about instructions that only move on. -/
theorem witness_ExitTrapHaltsWithItsValue : (spot 0xFFD 0 0).pcNat + 2 < Config.memSize := by decide

theorem witness_ComputedJumpAddsV0 : (0xFFF#12).toNat + ((spot 0 0 0).getV 0).toNat < Config.memSize ∧
    (0xF00#12).toNat + ((State.reset.setV 0 0xFF).getV 0).toNat < Config.memSize ∧
    Config.memSize ≤ (0xFFF#12).toNat + ((State.reset.setV 0 1).getV 0).toNat := by decide

theorem witness_ComparesSkipOnTheirCondition :
    ((spot 0xFFB 7 0).getV 1 = 7 ∧ (spot 0xFFB 7 0).getV 1 ≠ 8 ∧ (spot 0xFFB 7 0).pcNat + 4 < Config.memSize) ∧
    (¬(spot 0xFFD 7 0).getV 1 = 8 ∧ ¬(spot 0xFFD 7 0).getV 1 ≠ 7 ∧ (spot 0xFFD 7 0).pcNat + 2 < Config.memSize) ∧
    ((spot 0xFFB 7 0).getV 1 = (spot 0xFFB 7 0).getV 1 ∧ (spot 0xFFB 7 0).getV 1 ≠ (spot 0xFFB 7 0).getV 2) := by decide

theorem witness_ImmediateLoadAndAdd : (spot 0xFFD 0 0).pcNat + 2 < Config.memSize := by decide
theorem witness_CopyAndLogicWriteOneRegister : (spot 0xFFD 0 0).pcNat + 2 < Config.memSize := by decide
theorem witness_AddSetsCarry : (spot 0xFFD 255 0).pcNat + 2 < Config.memSize := by decide
theorem witness_SubtractSetsNotBorrow : (spot 0xFFD 255 0).pcNat + 2 < Config.memSize := by decide
theorem witness_ShiftsMoveOutOneBit : (spot 0xFFD 255 0).pcNat + 2 < Config.memSize := by decide
theorem witness_RandomByteIsMasked : (spot 0xFFD 0 0).pcNat + 2 < Config.memSize := by decide
theorem witness_IndexLoadAndAdd : (spot 0xFFD 0xFF 0xFFFF).pcNat + 2 < Config.memSize := by decide

theorem witness_GlyphAddressOfDigit :
    (((spot 0xFFD 0xF 0).getV 1).toNat ≤ 0xF ∧ (spot 0xFFD 0xF 0).pcNat + 2 < Config.memSize) ∧
    0xF < ((spot 0xFFE 0x10 0).getV 1).toNat := by decide

theorem witness_DecimalDigitsAreStored : ((spot 0xFFD 255 0xFFD).mem.wf = true ∧
      (spot 0xFFD 255 0xFFD).indexNat + 3 ≤ Config.memSize ∧ (spot 0xFFD 255 0xFFD).pcNat + 2 < Config.memSize) ∧
    Config.memSize < (spot 0xFFD 255 0xFFE).indexNat + 3 := by decide

theorem witness_RegistersAreStored : (spot 0xFFD 0 0xFF0).mem.wf = true ∧
    (spot 0xFFD 0 0xFF0).indexNat + ((0xF#4).toNat + 1) ≤ Config.memSize ∧
    (spot 0xFFD 0 0xFF0).pcNat + 2 < Config.memSize := by decide

theorem witness_RegistersAreLoaded : (spot 0xFFD 0 0xFF0).indexNat + ((0xF#4).toNat + 1) ≤ Config.memSize ∧
    (spot 0xFFD 0 0xFF0).pcNat + 2 < Config.memSize := by decide

theorem witness_RangeFaultComesBeforeAnyWrite : Config.memSize < (spot 0xFFE 0 0xFFE).indexNat + 3 ∧
    Config.memSize < (spot 0xFFE 0 0xFF1).indexNat + ((0xF#4).toNat + 1) ∧
    ((0x1#4) ≠ 0 ∧ Config.memSize < (spot 0xFFE 0 0x1000).indexNat + (0x1#4).toNat) := by decide

theorem witness_StoreThenLoadRestoresRegisters : (spot 0xFFD 9 0xFFE).mem.wf = true ∧
    (spot 0xFFD 9 0xFFE).indexNat + ((0x1#4).toNat + 1) ≤ Config.memSize ∧ (spot 0xFFB 9 0xFFE).pcNat + 2 < Config.memSize ∧
    ∃ t, exec (.stRegs 1) (spot 0xFFB 9 0xFFE) = .next t ∧ t.index = 0xFFE ∧ t.pcNat + 2 < Config.memSize := by
  refine ⟨by decide, by decide, by decide, _, rfl, by decide, by decide⟩

theorem witness_WriteChangesOneByte : Memory.wf [(0, 1), (0xFFF, 2)] = true ∧ 0xFFF < Config.memSize := by decide

theorem witness_EqualReadsMakeEqualMemories : Memory.wf [(0, 1), (0xFFF, 2)] = true ∧
    ∀ a, a < Config.memSize → Memory.read [(0, 1), (0xFFF, 2)] a = Memory.read [(0, 1), (0xFFF, 2)] a :=
  ⟨by decide, fun _ _ => rfl⟩

theorem witness_StoredBytesAreFetchedNext : (spot 0xFFC 9 0xFFE).mem.wf = true ∧ 1 ≤ (0x1#4).toNat ∧
    (spot 0xFFC 9 0xFFE).indexNat = (spot 0xFFC 9 0xFFE).pcNat + 2 ∧
    (spot 0xFFC 9 0xFFE).indexNat + ((0x1#4).toNat + 1) ≤ Config.memSize := by decide

theorem witness_ClearMakesEveryPixelFalse : (spot 0xFFD 0 0).pcNat + 2 < Config.memSize := by decide

/-- A one-row sprite with its left pixel, at 0xFFF, drawn at column 63; the display as given. -/
def sprite (d : Display) : State := { spot 0xFFD 63 0xFFF with mem := [(0xFFF, 0x81)], disp := d }

theorem witness_DrawInvertsTheSpritePixels :
    ((0x0#4) = 0 ∧ (spot 0xFFD 0 0x1000).pcNat + 2 < Config.memSize) ∧
    ((sprite Display.blank).indexNat + (0x1#4).toNat ≤ Config.memSize ∧
      (sprite Display.blank).pcNat + 2 < Config.memSize) ∧
    InSprite (sprite Display.blank) 1 0 1 63 0 ∧ InSprite (sprite Display.blank) 1 0 1 6 0 ∧
    ¬InSprite (sprite Display.blank) 1 0 1 0 0 ∧
    (sprite (Display.blank.flip 6 0)).disp.pixel 6 0 = true ∧ (sprite Display.blank).disp.pixel 6 0 = false := by
  unfold InSprite; decide

theorem witness_DrawTwiceRestoresTheDisplay : ∃ t u, exec (.drw 1 0 1) (sprite Display.blank) = .next t ∧
    u = { t with pc := 0xFFD } ∧ u.disp = t.disp ∧ u.index = (sprite Display.blank).index ∧
    u.getV 1 = (sprite Display.blank).getV 1 ∧ u.getV 0 = (sprite Display.blank).getV 0 ∧
    (∀ r, r < (0x1#4).toNat → u.mem.read ((sprite Display.blank).indexNat + r) =
      (sprite Display.blank).mem.read ((sprite Display.blank).indexNat + r)) ∧ u.pcNat + 2 < Config.memSize := by
  refine ⟨_, _, rfl, rfl, rfl, rfl, by decide, by decide, by decide, by decide⟩

theorem witness_TimerTransfers : (spot 0xFFD 255 0).pcNat + 2 < Config.memSize := by decide

theorem witness_KeySkipsReadTheLatch : ((spot 0xFFB 0xF 0).getV 1).toNat = (0xF#4).toNat ∧
    (spot 0xFFB 0xF 0).pcNat + 4 < Config.memSize ∧ (spot 0xFFD 0xF 0).pcNat + 2 < Config.memSize ∧
    { spot 0xFFB 0xF 0 with keys := oneKey 0xF }.keys.pressed 0xF = true ∧ (spot 0xFFD 0xF 0).keys.pressed 0xF = false ∧
    0xF < ((spot 0xFFF 0x10 0).getV 1).toNat := by decide

theorem witness_KeyWaitStarts : (spot 0xFFF 0 0).pcNat < Config.memSize := by decide

theorem witness_KeyWaitCheckTakesAQualifyingKey : (∀ k, ¬Qualifies .edge State.reset k) ∧
    (∀ k, ¬Qualifies .level State.reset k) ∧
    Qualifies .edge { State.reset with keys := oneKey 0xF } 0xF ∧
    (∀ k, ¬Qualifies .edge { State.reset with keys := oneKey 5, ksnap := oneKey 5 } k) ∧
    Qualifies .level { State.reset with keys := oneKey 5, ksnap := oneKey 5 } 5 ∧
    (spot 0xFFD 0 0).pcNat + 2 < Config.memSize ∧ Config.memSize ≤ (spot 0xFFE 0 0).pcNat + 2 := by
  unfold Qualifies; decide

theorem witness_AwaitingStepIsOneCheck : pressed.status = .awaitingKey 3 ∧ pressed.mem.fontLoaded = true ∧
    pressed.mem.programLoaded = true ∧ pressed.schedule = [] ∧
    { pressed with schedule := [HostCall.step, .tick] }.schedule = .step :: [.tick] := by decide

theorem witness_TickCountsTimersDown : { faulted with schedule := [.tick, .step] }.schedule = .tick :: [.step] := by decide

theorem witness_KeyWriteReplacesTheLatch :
    { faulted with schedule := [.writeKeys (oneKey 1)] }.schedule = .writeKeys (oneKey 1) :: [] ∧
    (∃ t, engineStep (base 0xF30A) = .next t) ∧
    ∃ t, engineStep { base 0xF30A with status := .awaitingKey 3 } = .next t := ⟨by decide, ⟨_, rfl⟩, ⟨_, rfl⟩⟩

theorem witness_LoadCopiesBytesOrIsRefused : State.reset.mem.wf = true ∧
    0xFFE + [0x01#8, 0x02#8].length ≤ Config.memSize ∧ 0x1000 + ([] : List Byte).length ≤ Config.memSize ∧
    Config.memSize < 0xFFF + [0x01#8, 0x02#8].length := by decide

theorem witness_ImageLoadsAreLoadsAtTheirBase :
    0x200 + (List.replicate 0xE00 (0x01#8)).length ≤ Config.memSize ∧
    Config.memSize < 0x200 + (List.replicate 0xE01 (0x01#8)).length ∧
    ∃ t, hostCall (.load 0x200 [0x60, 0x00]) State.reset = .next t := by
  refine ⟨by rw [List.length_replicate], by rw [List.length_replicate]; decide, _, rfl⟩

theorem witness_RunEndsAtHaltOrFault : (∃ t, step (base 0x0123) = .next t ∧ t.result = .halted 0x123) ∧
    (∃ t, step (base 0x00EE) = .next t ∧ t.result = .faulted (.stackUnderflow 0x200 0x00EE)) ∧
    (∃ t, step (base 0x1200) = .next t ∧ t.result = .continued) ∧
    (faulted.status = .faulted (.stackUnderflow 0x200 0x00EE) ∧ faulted.schedule = []) ∧
    ((∀ e, State.reset.status ≠ .faulted e) ∧ State.reset.mem.fontLoaded = false ∧ State.reset.schedule = []) :=
  ⟨⟨_, rfl, rfl⟩, ⟨_, rfl, rfl⟩, ⟨_, rfl, rfl⟩, ⟨rfl, rfl⟩, ⟨fun _ => nofun, rfl, rfl⟩⟩

theorem witness_OnlyFlagWritersChangeVF : (∃ t, exec (.ldRegs 0xE) State.reset = .next t) ∧
    ∀ x y n nn, Instr.ldRegs 0xE ≠ .addReg x y ∧ Instr.ldRegs 0xE ≠ .sub x y ∧ Instr.ldRegs 0xE ≠ .shr x y ∧
      Instr.ldRegs 0xE ≠ .subn x y ∧ Instr.ldRegs 0xE ≠ .shl x y ∧ Instr.ldRegs 0xE ≠ .drw x y n ∧
      Instr.ldRegs 0xE ≠ .ldImm regF nn ∧ Instr.ldRegs 0xE ≠ .addImm regF nn ∧ Instr.ldRegs 0xE ≠ .ldReg regF y ∧
      Instr.ldRegs 0xE ≠ .or regF y ∧ Instr.ldRegs 0xE ≠ .and regF y ∧ Instr.ldRegs 0xE ≠ .xor regF y ∧
      Instr.ldRegs 0xE ≠ .rnd regF nn ∧ Instr.ldRegs 0xE ≠ .ldVxDt regF ∧ Instr.ldRegs 0xE ≠ .ldRegs regF := by
  refine ⟨⟨_, rfl⟩, fun x y n nn => ?_⟩
  simp; decide

theorem witness_OnlyIndexInstructionsChangeI : (∃ t, exec (.stRegs 0xF) State.reset = .next t) ∧
    ∀ x nnn, Instr.stRegs 0xF ≠ .ldI nnn ∧ Instr.stRegs 0xF ≠ .addI x ∧ Instr.stRegs 0xF ≠ .ldF x := by
  refine ⟨⟨_, rfl⟩, fun x nnn => ?_⟩
  simp

theorem witness_OnlyCallAndReturnTouchTheStack : (∃ t, exec (.jp 0x200) State.reset = .next t) ∧
    (∃ t, exec .ret (stacked 1 0x202) = .next t) ∧ (∀ nnn, Instr.jp 0x200 ≠ .call nnn) ∧ (∀ nnn, Instr.ret ≠ .call nnn) ∧
    Instr.jp 0x200 ≠ .ret := by
  refine ⟨⟨_, rfl⟩, ⟨_, rfl⟩, fun nnn => ?_, fun nnn => ?_, ?_⟩ <;> simp

theorem witness_OnlyStoresChangeMemory : State.reset.mem.wf = true ∧ (∃ t, exec .cls State.reset = .next t) ∧
    (∀ x, Instr.cls ≠ .ldB x ∧ Instr.cls ≠ .stRegs x) ∧ (∃ t, exec (.ldB 1) State.reset = .next t) ∧
    ∃ t, exec (.stRegs 0xF) State.reset = .next t := by
  refine ⟨by decide, ⟨_, rfl⟩, fun x => ?_, ⟨_, rfl⟩, ⟨_, rfl⟩⟩
  simp

theorem witness_DeviceStateChangesOnlyByItsInstructions : (∃ t, exec .ret (stacked 1 0x202) = .next t ∧ NoFault t) ∧
    (∀ x, Instr.ret ≠ .ldDtVx x) ∧ (∀ x, Instr.ret ≠ .ldStVx x) ∧ (∀ x, Instr.ret ≠ .ldVxK x) ∧
    ∀ x y n, Instr.ret ≠ .cls ∧ Instr.ret ≠ .drw x y n := by
  refine ⟨⟨_, rfl, fun e => ?_⟩, ?_, ?_, ?_, ?_⟩
  · exact nofun
  all_goals simp

theorem witness_EveryMoveKeepsTheInvariant : (base 0xF30A).Inv ∧ ∃ t, step (base 0xF30A) = .next t :=
  ⟨⟨by decide, by decide, by decide⟩, _, rfl⟩

end Sys2Proof.Tests
end

section
/-! PROOF. What an instruction leaves before its commit: its working copy of the state, said once for every instruction,
and the inversion of `exec` by it (30_encoding.md R95 to R97; 60_exceptions.md R251). -/

namespace Sys2Proof.Proofs
open Sys2Proof.Machine Sys2Proof.Spec

/-! ### The parts of an instruction's meaning -/

/-- The state that instruction `i` commits at `s` when it completes, but for the pc and the result of the step. Where
`exec` raises a fault instead, it says nothing of the machine. -/
def workingCopy (i : Instr) (s : State) : State :=
  match i with
  | .cls => { s with disp := Display.blank }
  | .ret =>
    let popped := (s.pop.map Prod.snd).getD s
    { s with sp := popped.sp }
  | .call _ =>
    let pushed := (s.push (BitVec.ofNat 16 (s.pcNat + 2))).getD s
    { s with stack := pushed.stack, sp := pushed.sp }
  | .ldImm x nn => s.setV x nn
  | .addImm x nn => s.setV x (s.getV x + nn)
  | .ldReg x y => s.setV x (s.getV y)
  | .or x y => s.setV x (s.getV x ||| s.getV y)
  | .and x y => s.setV x (s.getV x &&& s.getV y)
  | .xor x y => s.setV x (s.getV x ^^^ s.getV y)
  | .addReg x y => s.setResultThenFlag x (s.getV x + s.getV y) (carryOut (s.getV x) (s.getV y))
  | .sub x y => s.setResultThenFlag x (s.getV x - s.getV y) (notBorrow (s.getV x) (s.getV y))
  | .shr x _ => s.setShift Config.vfAlias x lowBit (· >>> 1)
  | .subn x y => s.setResultThenFlag x (s.getV y - s.getV x) (notBorrow (s.getV y) (s.getV x))
  | .shl x _ => s.setShift Config.vfAlias x highBit (· <<< 1)
  | .ldI nnn => { s with index := indexImm nnn }
  | .rnd x nn => { s.setV x (Config.randomByte s.draws &&& nn) with draws := s.draws + 1 }
  | .drw x y n => s.drawSprite x y n.toNat
  | .ldVxDt x => s.setV x s.dt
  | .ldVxK x => { s with status := .awaitingKey x, ksnap := s.keys }
  | .ldDtVx x => { s with dt := s.getV x }
  | .ldStVx x => { s with st := s.getV x }
  | .addI x => { s with index := s.index + (s.getV x).setWidth Config.iWidth }
  | .ldF x => { s with index := glyphAddress Config.fontStride ((s.getV x).setWidth 4) }
  | .ldB x => { s with mem := s.mem.writeBytes s.indexNat (bcdDigits (s.getV x)) }
  | .stRegs x => { s with mem := s.mem.writeBytes s.indexNat (s.regsUpTo x) }
  | .ldRegs x => s.setRegsFrom 0 (s.mem.readBytes s.indexNat (x.toNat + 1))
  | .exit _ | .jp _ | .jpV0 _ | .seImm _ _ | .sneImm _ _ | .seReg _ _ | .sneReg _ _ | .skp _ | .sknp _ => s

/-- How many bytes of memory at `I` instruction `i` reads or writes (R64). -/
def accessCount (i : Instr) : Nat :=
  match i with
  | .drw _ _ n => n.toNat
  | .ldB _ => 3
  | .stRegs x | .ldRegs x => x.toNat + 1
  | _ => 0

/-- The bytes that `i` accesses at `I` are in memory (R64). -/
def AccessInRange (i : Instr) (s : State) : Prop :=
  accessCount i = 0 ∨ s.indexNat + accessCount i ≤ Config.memSize

/-- What the step of a completing instruction `i` returns: `Halt(nnn)` for the exit trap, else `Continue` (R94). -/
def returned (i : Instr) : Result :=
  match i with
  | .exit nnn => .halted nnn
  | _ => .continued

/-- What the pseudocode of `i` may leave at `s`: its working copy with some next pc, its accesses in range, or a fault
that a step may record. -/
inductive Leaves (i : Instr) (s : State) : Effect → Prop where
  | done (npc : Nat) (inRange : AccessInRange i s) : Leaves i s (.done (workingCopy i s) npc (returned i))
  | raised {e : Fault} (legal : (Status.faulted e).legal = true) : Leaves i s (.raised e)

/-! ### Every instruction leaves its working copy, or raises a fault -/

theorem leaves_guardRange {i : Instr} {s : State} {eff : Effect} (h : AccessInRange i s → Leaves i s eff) :
    Leaves i s (guardRange i s s.indexNat (accessCount i) eff) := by
  rcases guardRange_cases i s s.indexNat (accessCount i) eff with ⟨hg, hr⟩ | ⟨hg, -⟩
  · rw [hg]
    exact h hr
  · rw [hg]
    exact .raised rfl

theorem leaves_withDigit {i : Instr} {s : State} {b : Byte} {k : RegIdx → Effect} (h : Leaves i s (k (b.setWidth 4))) :
    Leaves i s (withDigit i s b k) := by
  rcases withDigit_cases i s b k with ⟨-, hd⟩ | ⟨-, hd⟩
  · rw [hd]
    exact h
  · rw [hd]
    exact .raised rfl

/-- The effect of RET: the popped pointer, or `StackUnderflow` (R131). -/
theorem exec_ret_leaves (s : State) : ∃ eff, exec .ret s = commit .ret s eff ∧ Leaves .ret s eff := by
  refine ⟨_, rfl, ?_⟩
  rcases pop_cases s with ⟨-, h⟩ | ⟨_, _, _, h⟩
  · simp only [h]
    exact .raised rfl
  · have hw : workingCopy .ret s = { s with sp := ⟨s.sp.val - 1, ‹_›⟩ } := by simp [workingCopy, h]
    simp only [h, ← hw]
    exact .done _ (.inl rfl)

/-- The effect of CALL: the entry pushed, or `StackOverflow` (R134). -/
theorem exec_call_leaves (nnn : Addr12) (s : State) :
    ∃ eff, exec (.call nnn) s = commit (.call nnn) s eff ∧ Leaves (.call nnn) s eff := by
  refine ⟨_, rfl, ?_⟩
  rcases push_cases s (BitVec.ofNat 16 (s.pcNat + 2)) with ⟨-, h⟩ | ⟨hlt, h⟩
  · simp only [h]
    exact .raised rfl
  · have hw : workingCopy (.call nnn) s = { s with
        stack := s.stack.set s.sp.val (BitVec.ofNat 16 (s.pcNat + 2)) hlt
        sp := ⟨s.sp.val + 1, Nat.succ_lt_succ hlt⟩ } := by simp [workingCopy, h]
    simp only [h, ← hw]
    exact .done _ (.inl rfl)

/-- Every instruction commits its working copy, or raises a fault that a step may record (R95, R96). -/
theorem exec_leaves (i : Instr) (s : State) : ∃ eff, exec i s = commit i s eff ∧ Leaves i s eff := by
  cases i with
  | ret => exact exec_ret_leaves s
  | call nnn => exact exec_call_leaves nnn s
  | skp x | sknp x | ldF x => exact ⟨_, rfl, leaves_withDigit (.done _ (.inl rfl))⟩
  | drw x y n => exact ⟨_, rfl, leaves_guardRange (i := .drw x y n) (.done _)⟩
  | ldB x => exact ⟨_, rfl, leaves_guardRange (i := .ldB x) (.done _)⟩
  | stRegs x => exact ⟨_, rfl, leaves_guardRange (i := .stRegs x) (.done _)⟩
  | ldRegs x => exact ⟨_, rfl, leaves_guardRange (i := .ldRegs x) (.done _)⟩
  | _ => exact ⟨_, rfl, .done _ (.inl rfl)⟩

/-! ### The inversion of `exec` -/

theorem takeFault_eq_next (e : Fault) (s : State) : takeFault e s = .next (faultedWith e s) := rfl

/-- A commit that answers `t` took the `OutOfBounds` of the next pc, or committed the working copy (R95, R97). -/
theorem commit_done_next {i : Instr} {s w t : State} {npc : Nat} {r : Result}
    (h : commit i s (.done w npc r) = .next t) :
    t = faultedWith (outOfBoundsAt i s npc) s ∨
      npc < Config.memSize ∧ t = { w with pc := BitVec.ofNat 16 npc, result := r } := by
  by_cases hn : npc < Config.memSize
  · rw [commit_done hn, Host.Outcome.next.injEq] at h
    exact .inr ⟨hn, h.symm⟩
  · rw [commit_past (Nat.le_of_not_lt hn), takeFault_eq_next, Host.Outcome.next.injEq] at h
    exact .inl h.symm

/-- Everything the step of instruction `i` can answer: the state before it with a fault taken, or its working copy with a
next pc in memory (R95, R97, R251). -/
theorem exec_next_cases {i : Instr} {s t : State} (h : exec i s = .next t) :
    (∃ e, (Status.faulted e).legal = true ∧ t = faultedWith e s) ∨
      (AccessInRange i s ∧ ∃ npc < Config.memSize,
        t = { workingCopy i s with pc := BitVec.ofNat 16 npc, result := returned i }) := by
  obtain ⟨eff, he, hl⟩ := exec_leaves i s
  rw [he] at h
  cases hl with
  | raised legal =>
    rw [commit_raised, takeFault_eq_next, Host.Outcome.next.injEq] at h
    exact .inl ⟨_, legal, h.symm⟩
  | done npc inRange =>
    rcases commit_done_next h with rfl | ⟨hn, rfl⟩
    · exact .inl ⟨_, rfl, rfl⟩
    · exact .inr ⟨inRange, npc, hn, rfl⟩

/-- A part of the state that the end of a step does not write is left by an instruction whose working copy leaves it. -/
theorem exec_frame {α : Type} (part : State → α)
    (hpart : ∀ s pc st r, part { s with pc := pc, status := st, result := r } = part s) {i : Instr} {s t : State}
    (hw : part (workingCopy i s) = part s) (h : exec i s = .next t) : part t = part s := by
  rcases exec_next_cases h with ⟨e, -, rfl⟩ | ⟨-, npc, -, rfl⟩
  · exact hpart s s.pc _ _
  · exact (hpart (workingCopy i s) _ (workingCopy i s).status _).trans hw

/-! ### What each working copy leaves (10_state.md) -/

/-- R22: VF in the working copy of an instruction that is no flag writer and does not name VF as its destination. -/
theorem workingCopy_getV_regF {i : Instr} (s : State)
    (hi : ∀ x y n nn, i ≠ .addReg x y ∧ i ≠ .sub x y ∧ i ≠ .shr x y ∧ i ≠ .subn x y ∧ i ≠ .shl x y ∧ i ≠ .drw x y n ∧
      i ≠ .ldImm regF nn ∧ i ≠ .addImm regF nn ∧ i ≠ .ldReg regF y ∧ i ≠ .or regF y ∧ i ≠ .and regF y ∧
      i ≠ .xor regF y ∧ i ≠ .rnd regF nn ∧ i ≠ .ldVxDt regF ∧ i ≠ .ldRegs regF) :
    (workingCopy i s).getV regF = s.getV regF := by
  cases i with
  | addReg x y | sub x y | shr x y | subn x y | shl x y => simpa using hi x y 0 0
  | drw x y n => simpa using hi x y n 0
  | ldImm x nn | addImm x nn | rnd x nn =>
    have hx : regF ≠ x := by rintro rfl; simpa using hi 0 0 0 nn
    exact getV_setV_other s _ hx
  | ldReg x y | or x y | and x y | xor x y =>
    have hx : regF ≠ x := by rintro rfl; simpa using hi 0 y 0 0
    exact getV_setV_other s _ hx
  | ldVxDt x =>
    have hx : regF ≠ x := by rintro rfl; simpa using hi 0 0 0 0
    exact getV_setV_other s _ hx
  | ldRegs x =>
    have hx : regF ≠ x := by rintro rfl; simpa using hi 0 0 0 0
    have hne : x.toNat ≠ 15 := fun e => hx (BitVec.eq_of_toNat_eq e.symm)
    have hlt := x.isLt
    rw [workingCopy, getV_setRegsFrom _ _ _ (by rw [Memory.readBytes_length]; omega), if_neg]
    rw [Memory.readBytes_length, show regF.toNat = 15 from rfl]
    omega
  | _ => rfl

/-- R24: `Annn`, `Fx1E` and `Fx29` apart. -/
theorem workingCopy_index {i : Instr} (s : State) (hi : ∀ x nnn, i ≠ .ldI nnn ∧ i ≠ .addI x ∧ i ≠ .ldF x) :
    (workingCopy i s).index = s.index := by
  cases i with
  | ldI nnn => exact absurd rfl (hi 0 nnn).1
  | addI x => exact absurd rfl (hi x 0).2.1
  | ldF x => exact absurd rfl (hi x 0).2.2
  | _ => simp [workingCopy]

/-- R27: RET moves the pointer and leaves the entries. -/
theorem workingCopy_stack {i : Instr} (s : State) (hi : ∀ nnn, i ≠ .call nnn) :
    (workingCopy i s).stack = s.stack := by
  cases i with
  | call nnn => exact absurd rfl (hi nnn)
  | _ => simp [workingCopy]

theorem workingCopy_sp {i : Instr} (s : State) (hi : ∀ nnn, i ≠ .call nnn) (hret : i ≠ .ret) :
    (workingCopy i s).sp = s.sp := by
  cases i with
  | call nnn => exact absurd rfl (hi nnn)
  | ret => exact absurd rfl hret
  | _ => simp [workingCopy]

/-- R31: no instruction writes the latch. -/
theorem workingCopy_keys (i : Instr) (s : State) : (workingCopy i s).keys = s.keys := by
  cases i <;> simp [workingCopy]

/-- Log 3: no instruction changes the host's coming calls. -/
theorem workingCopy_schedule (i : Instr) (s : State) : (workingCopy i s).schedule = s.schedule := by
  cases i <;> simp [workingCopy]

/-- R28: `Fx15` apart. -/
theorem workingCopy_dt {i : Instr} (s : State) (hi : ∀ x, i ≠ .ldDtVx x) : (workingCopy i s).dt = s.dt := by
  cases i with
  | ldDtVx x => exact absurd rfl (hi x)
  | _ => simp [workingCopy]

/-- R28: `Fx18` apart. -/
theorem workingCopy_st {i : Instr} (s : State) (hi : ∀ x, i ≠ .ldStVx x) : (workingCopy i s).st = s.st := by
  cases i with
  | ldStVx x => exact absurd rfl (hi x)
  | _ => simp [workingCopy]

/-- R30: `00E0` and `Dxyn` apart. -/
theorem workingCopy_disp {i : Instr} (s : State) (hi : ∀ x y n, i ≠ .cls ∧ i ≠ .drw x y n) :
    (workingCopy i s).disp = s.disp := by
  cases i with
  | cls => exact absurd rfl (hi 0 0 0).1
  | drw x y n => exact absurd rfl (hi x y n).2
  | _ => simp [workingCopy]

/-- R33: `Fx0A` apart, which takes the snapshot. -/
theorem workingCopy_ksnap {i : Instr} (s : State) (hi : ∀ x, i ≠ .ldVxK x) : (workingCopy i s).ksnap = s.ksnap := by
  cases i with
  | ldVxK x => exact absurd rfl (hi x)
  | _ => simp [workingCopy]

/-- R32: `Fx0A` apart, which starts the wait. -/
theorem workingCopy_status {i : Instr} (s : State) (hi : ∀ x, i ≠ .ldVxK x) :
    (workingCopy i s).status = s.status := by
  cases i with
  | ldVxK x => exact absurd rfl (hi x)
  | _ => simp [workingCopy]

/-- R61: memory, of an instruction that is no store. -/
theorem workingCopy_mem {i : Instr} (s : State) (hi : ∀ x, i ≠ .ldB x ∧ i ≠ .stRegs x) :
    (workingCopy i s).mem = s.mem := by
  cases i with
  | ldB x => exact absurd rfl (hi x).1
  | stRegs x => exact absurd rfl (hi x).2
  | _ => simp [workingCopy]

end Sys2Proof.Proofs
end

section
/-! PROOF. The whole-machine rules of 10_state.md: which instruction may change which part of the state. -/

namespace Sys2Proof.Proofs
open Sys2Proof.Machine Sys2Proof.Spec

/-- Settles O53: VF by the frame of the working copy. -/
theorem onlyFlagWritersChangeVF : Obligations.OnlyFlagWritersChangeVF := by
  intro i s t h hi
  exact exec_frame (·.getV regF) (fun _ _ _ _ => rfl) (workingCopy_getV_regF s hi) h

/-- Settles O54: I by the frame of the working copy. -/
theorem onlyIndexInstructionsChangeI : Obligations.OnlyIndexInstructionsChangeI := by
  intro i s t h hi
  exact exec_frame (·.index) (fun _ _ _ _ => rfl) (workingCopy_index s hi) h

/-- Settles O55: the entries and the pointer by the frames of the working copy. -/
theorem onlyCallAndReturnTouchTheStack : Obligations.OnlyCallAndReturnTouchTheStack := by
  intro i s t h hi
  constructor
  · exact exec_frame (·.stack) (fun _ _ _ _ => rfl) (workingCopy_stack s hi) h
  · intro hret
    exact exec_frame (·.sp) (fun _ _ _ _ => rfl) (workingCopy_sp s hi hret) h

/-- R32: without a fault, only `Fx0A` changes the status. -/
theorem exec_status_of_noFault {i : Instr} {s t : State} (hi : ∀ x, i ≠ .ldVxK x) (h : exec i s = .next t)
    (ht : NoFault t) : t.status = s.status := by
  rcases exec_next_cases h with ⟨e, -, rfl⟩ | ⟨-, npc, -, rfl⟩
  · exact absurd rfl (ht e)
  · exact workingCopy_status s hi

/-- Settles O57: each part by the frame of the working copy, the status apart, which a taken fault writes too. -/
theorem deviceStateChangesOnlyByItsInstructions : Obligations.DeviceStateChangesOnlyByItsInstructions := by
  intro i s t h
  refine ⟨?keys, fun hi => ?dt, fun hi => ?st, fun hi => ?disp,
    fun hi => ⟨?ksnap, exec_status_of_noFault hi h⟩, ?schedule⟩
  case keys => exact exec_frame (·.keys) (fun _ _ _ _ => rfl) (workingCopy_keys i s) h
  case dt => exact exec_frame (·.dt) (fun _ _ _ _ => rfl) (workingCopy_dt s hi) h
  case st => exact exec_frame (·.st) (fun _ _ _ _ => rfl) (workingCopy_st s hi) h
  case disp => exact exec_frame (·.disp) (fun _ _ _ _ => rfl) (workingCopy_disp s hi) h
  case ksnap => exact exec_frame (·.ksnap) (fun _ _ _ _ => rfl) (workingCopy_ksnap s hi) h
  case schedule => exact exec_frame (·.schedule) (fun _ _ _ _ => rfl) (workingCopy_schedule i s) h

end Sys2Proof.Proofs
end

section
/-! PROOF. Every move of the machine keeps the invariant (R25, R32, R60, R97, R250): the taken fault, the commit, each
engine move, each host call. -/

namespace Sys2Proof.Proofs
open Sys2Proof.Machine Sys2Proof.Spec

/-- The invariant reads memory, the pc and the status only. -/
theorem inv_congr {s t : State} (hs : s.Inv) (hmem : t.mem = s.mem) (hpc : t.pc = s.pc)
    (hstatus : t.status = s.status) : t.Inv where
  mem_wf := hmem ▸ hs.mem_wf
  pc_in_memory := by
    rw [State.pcNat, hpc]
    exact hs.pc_in_memory
  status_legal := hstatus ▸ hs.status_legal

theorem inv_faultedWith {s : State} (hs : s.Inv) {e : Fault} (he : (Status.faulted e).legal = true) :
    (faultedWith e s).Inv where
  mem_wf := hs.mem_wf
  pc_in_memory := hs.pc_in_memory
  status_legal := he

/-- A state with canonical memory and a legal status meets the invariant once the next pc, in memory, is in (R97). -/
theorem inv_of_npc {t : State} (hmem : t.mem.wf = true) (hstatus : t.status.legal = true) {npc : Nat}
    (hn : npc < Config.memSize) (hpc : t.pc = BitVec.ofNat 16 npc) : t.Inv where
  mem_wf := hmem
  pc_in_memory := by
    rw [State.pcNat, hpc, BitVec.toNat_ofNat, Nat.mod_eq_of_lt (hn.trans (by decide))]
    exact hn
  status_legal := hstatus

/-! ### Instructions -/

/-- The stores keep the canonical form, their range being checked before (R60, R64). -/
theorem workingCopy_mem_wf {i : Instr} {s : State} (hs : s.mem.wf = true) (hr : AccessInRange i s) :
    (workingCopy i s).mem.wf = true := by
  cases i with
  | ldB x =>
    obtain h | h := hr
    · cases h
    · exact Memory.wf_writeBytes hs h
  | stRegs x =>
    obtain h | h := hr
    · cases h
    · exact Memory.wf_writeBytes hs (by rw [regsUpTo_length]; exact h)
  | _ => rwa [workingCopy_mem s (by simp)]

theorem workingCopy_status_legal {i : Instr} {s : State} (hs : s.status.legal = true) :
    (workingCopy i s).status.legal = true := by
  cases i with
  | ldVxK x => rfl
  | _ => rwa [workingCopy_status s (by simp)]

theorem exec_keeps_inv {i : Instr} {s t : State} (hs : s.Inv) (h : exec i s = .next t) : t.Inv := by
  rcases exec_next_cases h with ⟨e, he, rfl⟩ | ⟨hr, npc, hn, rfl⟩
  · exact inv_faultedWith hs he
  · exact inv_of_npc (workingCopy_mem_wf hs.mem_wf hr) (workingCopy_status_legal hs.status_legal) hn rfl

/-! ### The engine's step -/

theorem takeFault_keeps_inv {s t : State} (hs : s.Inv) {e : Fault} (he : (Status.faulted e).legal = true)
    (h : takeFault e s = .next t) : t.Inv := by
  cases h
  exact inv_faultedWith hs he

theorem returnFault_keeps_inv {s t : State} (hs : s.Inv) {e : Fault} (h : returnFault e s = .next t) : t.Inv := by
  cases h
  exact inv_congr hs rfl rfl rfl

theorem runInstruction_keeps_inv {s t : State} (hs : s.Inv) (h : runInstruction s = .next t) : t.Inv := by
  rcases runInstruction_cases s with ⟨w, i, -, -, hr⟩ | ⟨w, -, -, hr⟩ | ⟨a, -, hr⟩
  · exact exec_keeps_inv hs (hr ▸ h)
  · exact takeFault_keeps_inv hs rfl (hr ▸ h)
  · exact takeFault_keeps_inv hs rfl (hr ▸ h)

theorem completeWait_keeps_inv {x k : RegIdx} {s t : State} (hs : s.Inv) (h : completeWait x k s = .next t) :
    t.Inv := by
  rcases commit_done_next h with rfl | ⟨hn, rfl⟩
  · exact inv_faultedWith hs rfl
  · exact inv_of_npc hs.mem_wf rfl hn rfl

theorem keyWaitCheck_keeps_inv {mode : Config.KeyWaitMode} {x : RegIdx} {s t : State} (hs : s.Inv)
    (h : keyWaitCheck mode x s = .next t) : t.Inv := by
  rcases keyWaitCheck_cases mode x s with ⟨-, hc⟩ | ⟨k, -, hc⟩
  · rw [hc] at h
    cases h
    exact inv_congr hs rfl rfl rfl
  · exact completeWait_keeps_inv hs (hc ▸ h)

theorem engineStep_keeps_inv {s t : State} (hs : s.Inv) (h : engineStep s = .next t) : t.Inv := by
  rcases engineStep_cases s with ⟨e, -, hc⟩ | ⟨-, -, hc⟩ | ⟨x, -, -, hc⟩ | ⟨-, -, hc⟩
  · exact returnFault_keeps_inv hs (hc ▸ h)
  · exact returnFault_keeps_inv hs (hc ▸ h)
  · exact keyWaitCheck_keeps_inv hs (hc ▸ h)
  · exact runInstruction_keeps_inv hs (hc ▸ h)

/-! ### The host's calls (R275) -/

theorem inv_reset : State.reset.Inv where
  mem_wf := Memory.wf_nil
  pc_in_memory := by decide
  status_legal := rfl

/-- A load writes in memory only, or is refused (R71). -/
theorem inv_hostLoad {s : State} (hs : s.Inv) (offset : Nat) (bytes : List Byte) : (hostLoad offset bytes s).Inv := by
  unfold hostLoad
  split
  · exact inv_congr hs rfl rfl rfl
  · exact { hs with mem_wf := Memory.wf_writeBytes hs.mem_wf (by omega) }

theorem inv_hostLoadProgram {s : State} (hs : s.Inv) (bytes : List Byte) : (hostLoadProgram bytes s).Inv := by
  unfold hostLoadProgram
  split
  · exact inv_congr hs rfl rfl rfl
  · exact { inv_hostLoad hs Config.programBase bytes with pc_in_memory := inv_reset.pc_in_memory }

theorem hostCall_keeps_inv {c : HostCall} {s t : State} (hs : s.Inv) (h : hostCall c s = .next t) : t.Inv := by
  cases c with
  | construct | reset =>
    cases h
    exact inv_congr inv_reset rfl rfl rfl
  | loadFont bytes =>
    cases h
    exact inv_hostLoad hs _ bytes
  | loadProgram bytes =>
    cases h
    exact inv_hostLoadProgram hs bytes
  | load offset bytes =>
    cases h
    exact inv_hostLoad hs offset bytes
  | writeKeys keys | tick =>
    cases h
    exact inv_congr hs rfl rfl rfl
  | step => exact engineStep_keeps_inv hs h

/-- Settles O58: by the move, an engine step or the head of the host's schedule. -/
theorem everyMoveKeepsTheInvariant : Obligations.EveryMoveKeepsTheInvariant := by
  intro s t hs h
  cases hsched : s.schedule with
  | nil => exact engineStep_keeps_inv hs (step_of_empty hsched ▸ h)
  | cons c rest =>
    rw [step_of_call hsched] at h
    refine hostCall_keeps_inv ?_ h
    exact inv_congr hs rfl rfl rfl

end Sys2Proof.Proofs
end

section
/-! PROOF. Memory (20_memory.md): the single write, the canonical form and the loaded predicates; the blocks that the host
and the stores write; the range check before an access. -/

namespace Sys2Proof.Proofs
open Sys2Proof.Machine Sys2Proof.Spec

/-! ### One byte, and the canonical form (R60, R63, R70) -/

/-- Settles O10: each predicate is `anyNonzero` over its region. -/
theorem loadedPredicatesReadMemory : Obligations.LoadedPredicatesReadMemory := by
  intro m
  refine ⟨Memory.anyNonzero_iff m _ _, ?font⟩
  case font =>
    exact (Memory.anyNonzero_iff m 0 _).trans (exists_congr fun a => and_iff_right (Nat.zero_le a))

/-- Settles O36: a write keeps the canonical form, and a read after it is the byte written there or the old byte. -/
theorem writeChangesOneByte : Obligations.WriteChangesOneByte := by
  intro m a b hm ha
  have hread (x : Nat) : (m.write a b).read x = if x = a then b else m.read x := Memory.read_write hm a b x
  refine ⟨Memory.wf_write hm ha b, ?_, fun x hx => ?_⟩
  · rw [hread, if_pos rfl]
  · rw [hread, if_neg hx]

/-- A canonical list that reads as `c :: m` does lists nothing but zeros below `c`, so it cannot start after it. -/
theorem start_le_of_read_eq {lo lo' : Nat} {c : Host.Cell} {m m' : Memory} (hm : Memory.wfFrom lo (c :: m) = true)
    (hm' : Memory.wfFrom lo' m' = true)
    (h : ∀ a, a < Config.memSize → Memory.read (c :: m) a = Memory.read m' a) : lo' ≤ c.1 := by
  obtain ⟨-, hc, hc0, -⟩ := (Memory.wfFrom_cons lo c m).1 hm
  by_contra hlt
  have hzero : Memory.read m' c.1 = 0x00#8 := Memory.read_below hm' (by omega)
  rw [← h c.1 hc, Memory.read_cons, if_pos rfl] at hzero
  exact hc0 hzero

/-- Canonical lists that read alike are equal, cell by cell: their first cells are the first addresses that read
non-zero. -/
theorem eq_of_read_eq {lo : Nat} {m m' : Memory} (hm : Memory.wfFrom lo m = true) (hm' : Memory.wfFrom lo m' = true)
    (h : ∀ a, a < Config.memSize → Memory.read m a = Memory.read m' a) : m = m' := by
  induction m generalizing lo m' with
  | nil =>
    cases m' with
    | nil => rfl
    | cons c' m' =>
      have hend : Config.memSize ≤ c'.1 := start_le_of_read_eq hm' (m' := []) rfl fun a ha => (h a ha).symm
      have hc' := ((Memory.wfFrom_cons lo c' m').1 hm').2.1
      omega
  | cons c m ih =>
    obtain ⟨hlo, hc, hc0, hrest⟩ := (Memory.wfFrom_cons lo c m).1 hm
    cases m' with
    | nil =>
      have hend : Config.memSize ≤ c.1 := start_le_of_read_eq hm (m' := []) rfl h
      omega
    | cons c' m' =>
      obtain ⟨hlo', hc', hc0', hrest'⟩ := (Memory.wfFrom_cons lo c' m').1 hm'
      have hle : c'.1 ≤ c.1 :=
        start_le_of_read_eq hm ((Memory.wfFrom_cons c'.1 c' m').2 ⟨le_rfl, hc', hc0', hrest'⟩) h
      have hge : c.1 ≤ c'.1 :=
        start_le_of_read_eq hm' ((Memory.wfFrom_cons c.1 c m).2 ⟨le_rfl, hc, hc0, hrest⟩) fun a ha => (h a ha).symm
      have haddr : c'.1 = c.1 := le_antisymm hle hge
      have hbyte : c.2 = c'.2 := by simpa [Memory.read_cons, haddr] using h c.1 hc
      have htail : m = m' := by
        rw [haddr] at hrest'
        refine ih hrest hrest' fun a ha => ?_
        by_cases hbelow : a < c.1 + 1
        · rw [Memory.read_below hrest hbelow, Memory.read_below hrest' hbelow]
        · have ha' := h a ha
          rwa [Memory.read_cons, Memory.read_cons, if_neg (by omega), if_neg (by omega)] at ha'
      rw [Prod.ext haddr.symm hbyte, htail]

/-- Settles O37: by induction on the two lists of cells. -/
theorem equalReadsMakeEqualMemories : Obligations.EqualReadsMakeEqualMemories :=
  fun _ _ hm hm' h => eq_of_read_eq hm hm' h

/-! ### A block of bytes (R71, R193, R194) -/

theorem read_writeBytes_inside {m : Memory} (hm : m.wf = true) {base : Nat} {bs : List Byte}
    (h : base + bs.length ≤ Config.memSize) {k : Nat} (hk : k < bs.length) :
    (m.writeBytes base bs).read (base + k) = bs.getD k 0x00#8 := by
  rw [Memory.read_writeBytes hm h, if_pos (by omega), Nat.add_sub_cancel_left]

theorem read_writeBytes_outside {m : Memory} (hm : m.wf = true) {base : Nat} {bs : List Byte}
    (h : base + bs.length ≤ Config.memSize) {a : Nat} (ha : a < base ∨ base + bs.length ≤ a) :
    (m.writeBytes base bs).read a = m.read a := by
  rw [Memory.read_writeBytes hm h, if_neg (by omega)]

/-- Settles O49: the load writes its block, or meets its check. -/
theorem loadCopiesBytesOrIsRefused : Obligations.LoadCopiesBytesOrIsRefused := by
  intro s offset bytes hm
  constructor
  · intro hr
    refine ⟨s.mem.writeBytes offset bytes, ?answer, fun k hk => ?inside,
      fun a ha => read_writeBytes_outside hm hr ha⟩
    case answer => rw [hostCall, hostLoad, if_neg (Nat.not_lt.2 hr)]
    case inside => simp [read_writeBytes_inside hm hr hk, List.getD_eq_getElem?_getD, hk]
  · intro hpast
    rw [hostCall, hostLoad, if_pos hpast]

/-! ### The range check of an instruction (R64) -/

/-- R64: a guarded effect past the end of memory is never run; the fault is taken. -/
theorem commit_guardRange_past {i : Instr} {s : State} {base count : Nat} {eff : Effect} (h0 : 0 < count)
    (h : Config.memSize < base + count) :
    commit i s (guardRange i s base count eff) = .next (faultedWith (outOfBounds i s (max base Config.memSize)) s) := by
  rw [guardRange, rangeFault_eq_some h0 h]
  rfl

/-- A guarded effect in range, with the next pc in memory, is committed (R64, R97, R98). -/
theorem commit_guardRange_advance {i : Instr} {s t : State} {base count : Nat} (h : base + count ≤ Config.memSize)
    (hpc : s.pcNat + 2 < Config.memSize) :
    commit i s (guardRange i s base count (advance s t)) = .next (plusTwo s t) := by
  rw [guardRange, rangeFault_eq_none (.inr h)]
  exact commit_done hpc

/-- R64, for every instruction that accesses memory. -/
theorem exec_access_past {i : Instr} {s : State} (h0 : 0 < accessCount i)
    (h : Config.memSize < s.indexNat + accessCount i) :
    exec i s = .next (faultedWith (outOfBounds i s (max s.indexNat Config.memSize)) s) := by
  cases i with
  | drw | ldB | stRegs | ldRegs => exact commit_guardRange_past h0 h
  | _ => exact absurd h0 (Nat.lt_irrefl 0)

/-- Settles O34: each access is of at least one byte, so its range is checked first. -/
theorem rangeFaultComesBeforeAnyWrite : Obligations.RangeFaultComesBeforeAnyWrite := by
  intro s x y n
  refine ⟨fun h => ?ldB, fun h => ⟨?stRegs, ?ldRegs⟩, fun hn h => ?drw⟩
  case ldB => exact exec_access_past (i := .ldB x) (Nat.succ_pos 2) h
  case stRegs => exact exec_access_past (i := .stRegs x) (Nat.succ_pos _) h
  case ldRegs => exact exec_access_past (i := .ldRegs x) (Nat.succ_pos _) h
  case drw =>
    have hpos : 0 < n.toNat := Nat.pos_of_ne_zero fun h0 => hn (BitVec.eq_of_toNat_eq h0)
    exact exec_access_past (i := .drw x y n) hpos h

/-! ### The stores (R61, R193, R194) -/

/-- The working copy differs in memory at most at the bytes accessed from I on. -/
theorem workingCopy_read_outside {i : Instr} {s : State} (hs : s.mem.wf = true) (hr : AccessInRange i s) {a : Nat}
    (ha : a < s.indexNat ∨ s.indexNat + accessCount i ≤ a) : (workingCopy i s).mem.read a = s.mem.read a := by
  cases i with
  | ldB x =>
    have hle : s.indexNat + 3 ≤ Config.memSize := hr.resolve_left (Nat.succ_ne_zero 2)
    exact read_writeBytes_outside hs hle ha
  | stRegs x =>
    have hle : s.indexNat + (x.toNat + 1) ≤ Config.memSize := hr.resolve_left (Nat.succ_ne_zero _)
    rw [← regsUpTo_length s x] at hle
    exact read_writeBytes_outside hs hle (by rwa [regsUpTo_length])
  | _ => rw [workingCopy_mem s (by simp)]

/-- R61: a step changes no byte outside the accessed ones. -/
theorem exec_read_outside {i : Instr} {s t : State} (hs : s.mem.wf = true) (h : exec i s = .next t) {a : Nat}
    (ha : a < s.indexNat ∨ s.indexNat + accessCount i ≤ a) : t.mem.read a = s.mem.read a := by
  rcases exec_next_cases h with ⟨e, -, rfl⟩ | ⟨hr, npc, -, rfl⟩
  · rfl
  · exact workingCopy_read_outside hs hr ha

/-- Settles O56: memory by the frame of the working copy; of the two stores, the bytes outside their block. -/
theorem onlyStoresChangeMemory : Obligations.OnlyStoresChangeMemory := by
  intro i s t hs h
  refine ⟨fun hi a => ?other, ?ldB, ?stRegs⟩
  case other =>
    have hmem : t.mem = s.mem := exec_frame (·.mem) (fun _ _ _ _ => rfl) (workingCopy_mem s hi) h
    rw [hmem]
  case ldB =>
    rintro x rfl a ha
    exact exec_read_outside hs h ha
  case stRegs =>
    rintro x rfl a ha
    exact exec_read_outside hs h ha

/-- R194: the bytes that `Fx55` writes, one register each. -/
theorem read_storedRegs {s : State} {x : RegIdx} (hs : s.mem.wf = true)
    (hr : s.indexNat + (x.toNat + 1) ≤ Config.memSize) {k : Nat} (hk : k ≤ x.toNat) :
    (s.mem.writeBytes s.indexNat (s.regsUpTo x)).read (s.indexNat + k) = s.getV (BitVec.ofNat 4 k) := by
  rw [read_writeBytes_inside hs (by rwa [regsUpTo_length]) (by rw [regsUpTo_length]; omega), regsUpTo_getD s x k hk]

theorem exec_stRegs_inRange {s : State} {x : RegIdx} (hr : s.indexNat + (x.toNat + 1) ≤ Config.memSize)
    (hpc : s.pcNat + 2 < Config.memSize) :
    exec (.stRegs x) s = .next (plusTwo s { s with mem := s.mem.writeBytes s.indexNat (s.regsUpTo x) }) :=
  commit_guardRange_advance hr hpc

theorem pcNat_plusTwo {s : State} (t : State) (hpc : s.pcNat + 2 < Config.memSize) :
    (plusTwo s t).pcNat = s.pcNat + 2 := by
  rw [plusTwo, State.pcNat, BitVec.toNat_ofNat, Nat.mod_eq_of_lt (hpc.trans (by decide))]

/-- Settles O38: the fetch at the next pc, where I points, reads the bytes stored there. -/
theorem storedBytesAreFetchedNext : Obligations.StoredBytesAreFetchedNext := by
  intro s x hs hx hi hr
  have hpc : s.pcNat + 2 < Config.memSize := by omega
  refine ⟨_, exec_stRegs_inRange hr hpc, ?_⟩
  rw [fetchWord_ok (by rw [pcNat_plusTwo _ hpc]; omega), pcNat_plusTwo _ hpc, ← hi]
  congr 2
  · exact read_storedRegs hs hr (Nat.zero_le _)
  · exact read_storedRegs hs hr hx

end Sys2Proof.Proofs
end

section
/-! PROOF. Decode and encode (30_encoding.md R99 to R101, R104; 20_memory.md R65): the word of an instruction decodes to
it, a word that decodes is the word of what it decodes to, and the words that decode to nothing are R101's table. -/

namespace Sys2Proof.Proofs
open Sys2Proof.Machine Sys2Proof.Spec

/-! ### From an instruction to its word and back -/

/-- R99, R102: family 0, but for the words of CLS and RET, is the exit trap. -/
theorem decode0_encodeNNN {nnn : Addr12} (h : (Instr.exit nnn).wellFormed = true) :
    decode0 (encodeNNN 0x0#4 nnn) = .exit nnn := by
  obtain ⟨hcls, hret⟩ : nnn ≠ 0x0E0#12 ∧ nnn ≠ 0x0EE#12 := by simpa [Instr.wellFormed] using h
  have hcls' : encodeNNN 0x0#4 nnn ≠ 0x00E0#16 := fun e => hcls (by rw [← fieldNNN_encodeNNN 0x0#4 nnn, e]; rfl)
  have hret' : encodeNNN 0x0#4 nnn ≠ 0x00EE#16 := fun e => hret (by rw [← fieldNNN_encodeNNN 0x0#4 nnn, e]; rfl)
  rw [decode0, if_neg hcls', if_neg hret', fieldNNN_encodeNNN]

/-- R99, R100: the decoder reads the fields that the pattern of each instruction places. -/
theorem decodeWord_encode {i : Instr} (hi : i.wellFormed = true) : decodeWord (encode i) = some i := by
  cases i with
  | cls | ret => rfl
  | exit nnn => simp [encode, decodeWord, decode0_encodeNNN hi]
  | ldReg | or | and | xor | addReg | sub | shr | subn | shl => simp [encode, decodeWord, decode8]
  | skp | sknp => simp [encode, decodeWord, decodeE]
  | ldVxDt | ldVxK | ldDtVx | ldStVx | addI | ldF | ldB | stRegs | ldRegs => simp [encode, decodeWord, decodeF]
  | _ => simp [encode, decodeWord]

/-- Settles O3: the two bytes make the word again, and the word decodes to its instruction. -/
theorem decodeOfEncodedInstruction : Obligations.DecodeOfEncodedInstruction := by
  intro i rest hi
  rw [encodeBytes, List.cons_append, List.cons_append, List.nil_append, decode_bytes, wordOfBytes_bytes,
    decodeWord_encode hi]

/-! ### From a word to its instruction and back -/

/-- A word is its nibbles, its major opcode being `a`. -/
theorem wordOfNibbles_of_fieldA {w : Word} {a : BitVec 4} (ha : (fieldA w).toNat = a.toNat) :
    wordOfNibbles a (fieldX w) (fieldY w) (fieldN w) = w := by
  rw [← BitVec.eq_of_toNat_eq ha, wordOfNibbles_fields]

/-- A word is the pattern `axnn` of its fields. -/
theorem encodeXNN_of_fieldA {w : Word} {a : BitVec 4} (ha : (fieldA w).toNat = a.toNat) :
    encodeXNN a (fieldX w) (fieldNN w) = w := by
  apply BitVec.eq_of_toNat_eq
  rw [encodeXNN_toNat, ← ha]
  simp only [fieldA, fieldX, fieldNN, BitVec.extractLsb'_toNat, Nat.shiftRight_eq_div_pow]
  omega

/-- A word is the pattern `annn` of its fields. -/
theorem encodeNNN_of_fieldA {w : Word} {a : BitVec 4} (ha : (fieldA w).toNat = a.toNat) :
    encodeNNN a (fieldNNN w) = w := by
  apply BitVec.eq_of_toNat_eq
  rw [encodeNNN_toNat, ← ha]
  simp only [fieldA, fieldNNN, BitVec.extractLsb'_toNat, Nat.shiftRight_eq_div_pow]
  omega

/-- `i` is the well-formed instruction whose word is `w`. -/
def IsWordOf (w : Word) (i : Instr) : Prop := encode i = w ∧ i.wellFormed = true

theorem isWordOf_decode0 {w : Word} (ha : (fieldA w).toNat = 0) : IsWordOf w (decode0 w) := by
  unfold decode0
  split
  · next h => exact ⟨h.symm, rfl⟩
  · next hcls =>
    split
    · next h => exact ⟨h.symm, rfl⟩
    · next hret =>
      have hw : encodeNNN 0x0#4 (fieldNNN w) = w := encodeNNN_of_fieldA ha
      refine ⟨hw, ?_⟩
      have hcls' : fieldNNN w ≠ 0x0E0#12 := fun e => hcls (by rw [← hw, e]; rfl)
      have hret' : fieldNNN w ≠ 0x0EE#12 := fun e => hret (by rw [← hw, e]; rfl)
      simp [Instr.wellFormed, hcls', hret']

/-! The families that a second field decides (R99). -/

theorem isWordOf_decode8 {x y : RegIdx} {n : Nat} {i : Instr} (h : decode8 x y n = some i) :
    IsWordOf (wordOfNibbles 0x8#4 x y (BitVec.ofNat 4 n)) i := by
  unfold decode8 at h
  split at h <;> cases h <;> exact ⟨rfl, rfl⟩

theorem isWordOf_decodeE {x : RegIdx} {nn : Nat} {i : Instr} (h : decodeE x nn = some i) :
    IsWordOf (encodeXNN 0xE#4 x (BitVec.ofNat 8 nn)) i := by
  unfold decodeE at h
  split at h <;> cases h <;> exact ⟨rfl, rfl⟩

theorem isWordOf_decodeF {x : RegIdx} {nn : Nat} {i : Instr} (h : decodeF x nn = some i) :
    IsWordOf (encodeXNN 0xF#4 x (BitVec.ofNat 8 nn)) i := by
  unfold decodeF at h
  split at h <;> cases h <;> exact ⟨rfl, rfl⟩

/-- Settles O4: by the decoder's cases, in its order; a family that a second field decides cites its lemma. -/
theorem encodeOfDecodedWord : Obligations.EncodeOfDecodedWord := by
  intro w i
  fun_cases decodeWord w with
  | case1 ha =>
    rintro ⟨rfl⟩
    exact isWordOf_decode0 ha
  | case2 ha | case3 ha | case13 ha | case14 ha =>
    rintro ⟨rfl⟩
    exact ⟨encodeNNN_of_fieldA ha, rfl⟩
  | case4 ha | case5 ha | case8 ha | case9 ha | case15 ha =>
    rintro ⟨rfl⟩
    exact ⟨encodeXNN_of_fieldA ha, rfl⟩
  | case6 ha hn | case11 ha hn =>
    rintro ⟨rfl⟩
    refine ⟨?_, rfl⟩
    rw [encode, ← hn, wordOfNibbles_of_fieldA ha]
  | case10 ha =>
    intro h
    have hi := isWordOf_decode8 h
    rwa [BitVec.ofNat_toNat, BitVec.setWidth_eq, wordOfNibbles_of_fieldA ha] at hi
  | case16 ha =>
    rintro ⟨rfl⟩
    exact ⟨wordOfNibbles_of_fieldA ha, rfl⟩
  | case17 ha =>
    intro h
    have hi := isWordOf_decodeE h
    rwa [BitVec.ofNat_toNat, BitVec.setWidth_eq, encodeXNN_of_fieldA ha] at hi
  | case18 ha =>
    intro h
    have hi := isWordOf_decodeF h
    rwa [BitVec.ofNat_toNat, BitVec.setWidth_eq, encodeXNN_of_fieldA ha] at hi
  | case7 | case12 | case19 => nofun

/-! ### The words that decode to nothing (R101) -/

theorem fieldA_toNat (w : Word) : (fieldA w).toNat = w.toNat / 0x1000 := by
  simp only [fieldA, BitVec.extractLsb'_toNat, Nat.shiftRight_eq_div_pow]
  omega

theorem fieldN_toNat (w : Word) : (fieldN w).toNat = w.toNat % 0x10 := by
  simp [fieldN]

theorem fieldNN_toNat (w : Word) : (fieldNN w).toNat = w.toNat % 0x100 := by
  simp [fieldNN]

theorem decode8_eq_none_iff {x y : RegIdx} {n : Nat} (hn : n < 0x10) :
    decode8 x y n = none ↔ n ∈ [0x8, 0x9, 0xA, 0xB, 0xC, 0xD, 0xF] := by
  fun_cases decode8 x y n with
  | case10 =>
    simp only [imp_false, List.mem_cons, List.not_mem_nil, true_iff] at *
    omega
  | _ => simp

theorem decodeE_eq_none_iff {x : RegIdx} {nn : Nat} : decodeE x nn = none ↔ nn ∉ [0x9E, 0xA1] := by
  fun_cases decodeE x nn with
  | case3 =>
    simp only [imp_false, List.mem_cons, List.not_mem_nil, or_false, not_or, true_iff] at *
    omega
  | _ => simp

theorem decodeF_eq_none_iff {x : RegIdx} {nn : Nat} :
    decodeF x nn = none ↔ nn ∉ [0x07, 0x0A, 0x15, 0x18, 0x1E, 0x29, 0x33, 0x55, 0x65] := by
  fun_cases decodeF x nn with
  | case10 =>
    simp only [imp_false, List.mem_cons, List.not_mem_nil, or_false, not_or, true_iff] at *
    omega
  | _ => simp

/-- R101: by the decoder's cases; the families 5, 8, 9, E and F have words that match no pattern. -/
theorem decodeWord_eq_none_iff (w : Word) : decodeWord w = none ↔ Illegal w := by
  simp only [Illegal, ← fieldA_toNat, ← fieldN_toNat, ← fieldNN_toNat]
  fun_cases decodeWord w with
  | case6 ha hn | case11 ha hn => simp [ha, hn]
  | case7 ha hn | case12 ha hn =>
    have hn' : (fieldN w).toNat ≠ 0 := fun e => hn (BitVec.eq_of_toNat_eq e)
    simp [ha, hn']
  | case10 ha => simp [ha, decode8_eq_none_iff (fieldN w).isLt]
  | case17 ha => simp [ha, decodeE_eq_none_iff]
  | case18 ha => simp [ha, decodeF_eq_none_iff]
  | case19 =>
    have ha := (fieldA w).isLt
    simp only [imp_false] at *
    omega
  | _ => simp [*]

/-! ### The patterns of R99, as numbers -/

theorem word_toNat {a x y n : Nat} (h : a * 0x1000 + x * 0x100 + y * 0x10 + n < 0x10000) :
    (word a x y n).toNat = a * 0x1000 + x * 0x100 + y * 0x10 + n := by
  rw [word, BitVec.toNat_ofNat, Nat.mod_eq_of_lt h]

theorem word_eq_wordOfNibbles (a x y n : BitVec 4) :
    word a.toNat x.toNat y.toNat n.toNat = wordOfNibbles a x y n := by
  apply BitVec.eq_of_toNat_eq
  rw [word_toNat (by omega), wordOfNibbles_toNat]

theorem word_eq_encodeXNN (a : BitVec 4) (x : RegIdx) (nn : Byte) :
    word a.toNat x.toNat 0 nn.toNat = encodeXNN a x nn := by
  apply BitVec.eq_of_toNat_eq
  rw [word_toNat (by omega), encodeXNN_toNat]
  omega

theorem word_eq_encodeNNN (a : BitVec 4) (nnn : Addr12) : word a.toNat 0 0 nnn.toNat = encodeNNN a nnn := by
  apply BitVec.eq_of_toNat_eq
  rw [word_toNat (by omega), encodeNNN_toNat]
  omega

/-- R99: the pattern `anyn` decodes to the instruction that encodes to it; likewise the next two. -/
theorem decodeWord_word {i : Instr} (hi : i.wellFormed = true) (a x y n : BitVec 4)
    (h : encode i = wordOfNibbles a x y n) : decodeWord (word a.toNat x.toNat y.toNat n.toNat) = some i := by
  rw [word_eq_wordOfNibbles, ← h, decodeWord_encode hi]

theorem decodeWord_word_xnn {i : Instr} (hi : i.wellFormed = true) (a : BitVec 4) (x : RegIdx) (nn : Byte)
    (h : encode i = encodeXNN a x nn) : decodeWord (word a.toNat x.toNat 0 nn.toNat) = some i := by
  rw [word_eq_encodeXNN, ← h, decodeWord_encode hi]

theorem decodeWord_word_nnn {i : Instr} (hi : i.wellFormed = true) (a : BitVec 4) (nnn : Addr12)
    (h : encode i = encodeNNN a nnn) : decodeWord (word a.toNat 0 0 nnn.toNat) = some i := by
  rw [word_eq_encodeNNN, ← h, decodeWord_encode hi]

/-- Settles O2: each pattern is the word of its instruction, in the order of the statement. -/
theorem patternsDecodeToTheirInstructions : Obligations.PatternsDecodeToTheirInstructions := by
  refine ⟨⟨rfl, rfl, fun nnn hcls hret => ?exit⟩, fun nnn => ?nnn, fun x nn => ?xnn, fun x y => ?xy,
    fun x y n => decodeWord_word rfl 0xD#4 x y n rfl, fun x => ?x, decodeWord_eq_none_iff⟩
  case exit => exact decodeWord_word_nnn (by simp [Instr.wellFormed, hcls, hret]) 0x0#4 nnn rfl
  case nnn =>
    exact ⟨decodeWord_word_nnn rfl 0x1#4 nnn rfl, decodeWord_word_nnn rfl 0x2#4 nnn rfl,
      decodeWord_word_nnn rfl 0xA#4 nnn rfl, decodeWord_word_nnn rfl 0xB#4 nnn rfl⟩
  case xnn =>
    exact ⟨decodeWord_word_xnn rfl 0x3#4 x nn rfl, decodeWord_word_xnn rfl 0x4#4 x nn rfl,
      decodeWord_word_xnn rfl 0x6#4 x nn rfl, decodeWord_word_xnn rfl 0x7#4 x nn rfl,
      decodeWord_word_xnn rfl 0xC#4 x nn rfl⟩
  case xy =>
    exact ⟨decodeWord_word rfl 0x5#4 x y 0x0#4 rfl, decodeWord_word rfl 0x9#4 x y 0x0#4 rfl,
      decodeWord_word rfl 0x8#4 x y 0x0#4 rfl, decodeWord_word rfl 0x8#4 x y 0x1#4 rfl,
      decodeWord_word rfl 0x8#4 x y 0x2#4 rfl, decodeWord_word rfl 0x8#4 x y 0x3#4 rfl,
      decodeWord_word rfl 0x8#4 x y 0x4#4 rfl, decodeWord_word rfl 0x8#4 x y 0x5#4 rfl,
      decodeWord_word rfl 0x8#4 x y 0x6#4 rfl, decodeWord_word rfl 0x8#4 x y 0x7#4 rfl,
      decodeWord_word rfl 0x8#4 x y 0xE#4 rfl⟩
  case x =>
    exact ⟨decodeWord_word rfl 0xE#4 x 0x9#4 0xE#4 rfl, decodeWord_word rfl 0xE#4 x 0xA#4 0x1#4 rfl,
      decodeWord_word rfl 0xF#4 x 0x0#4 0x7#4 rfl, decodeWord_word rfl 0xF#4 x 0x0#4 0xA#4 rfl,
      decodeWord_word rfl 0xF#4 x 0x1#4 0x5#4 rfl, decodeWord_word rfl 0xF#4 x 0x1#4 0x8#4 rfl,
      decodeWord_word rfl 0xF#4 x 0x1#4 0xE#4 rfl, decodeWord_word rfl 0xF#4 x 0x2#4 0x9#4 rfl,
      decodeWord_word rfl 0xF#4 x 0x3#4 0x3#4 rfl, decodeWord_word rfl 0xF#4 x 0x5#4 0x5#4 rfl,
      decodeWord_word rfl 0xF#4 x 0x6#4 0x5#4 rfl⟩

/-- Settles O1: by running the decoder on the ten words. -/
theorem specWordsDecode : Obligations.SpecWordsDecode := by
  unfold Obligations.SpecWordsDecode
  decide

end Sys2Proof.Proofs
end

section
/-! PROOF. The step (30_encoding.md R93 to R96, R101; 60_exceptions.md R252, R253, R275): the fetch, the order of a step,
and what every instruction and every move answers. -/

namespace Sys2Proof.Proofs
open Sys2Proof.Machine Sys2Proof.Spec

/-! ### The fetch and the order of a step (R93, R96, R254) -/

/-- R93, D4: the first of the two addresses that is past memory. -/
theorem fetchWord_past {s : State} (h : Config.memSize ≤ s.pcNat + 1) :
    fetchWord s = .error (max s.pcNat Config.memSize) := by
  by_cases hpc : s.pcNat < Config.memSize
  · rw [fetchWord, Memory.checkedRead_ok hpc, Memory.checkedRead_error h,
      show max s.pcNat Config.memSize = s.pcNat + 1 by omega]
  · rw [fetchWord, Memory.checkedRead_error (by omega), Nat.max_eq_left (by omega)]

theorem engineStep_runs {s : State} (hrun : s.status = .running) (hfont : s.mem.fontLoaded = true)
    (hprog : s.mem.programLoaded = true) : engineStep s = runInstruction s := by
  rw [engineStep_running hrun, State.runnable, hfont, hprog]
  rfl

theorem engineStep_checks {s : State} {x : RegIdx} (hwait : s.status = .awaitingKey x)
    (hfont : s.mem.fontLoaded = true) (hprog : s.mem.programLoaded = true) :
    engineStep s = keyWaitCheck Config.keyWaitMode x s := by
  rw [engineStep_awaiting hwait, State.runnable, hfont, hprog]
  rfl

theorem step_of_ready {s : State} (h : Ready s) : step s = runInstruction s := by
  obtain ⟨hrun, hfont, hprog, hsched⟩ := h
  rw [step_of_empty hsched, engineStep_runs hrun hfont hprog]

/-- R96: the word at the pc is fetched and executed. -/
theorem runInstruction_of_inMemory {s : State} (hpc : s.pcNat + 1 < Config.memSize) :
    runInstruction s = execWord (wordOfBytes (s.mem.read s.pcNat) (s.mem.read (s.pcNat + 1))) s := by
  rw [runInstruction, fetchWord_ok hpc]

theorem execWord_of_decode {w : Word} {i : Instr} (h : decodeWord w = some i) (s : State) :
    execWord w s = exec i s := by
  rw [execWord, h]

/-- R101. -/
theorem execWord_of_illegal {w : Word} (h : Illegal w) (s : State) :
    execWord w s = .next (faultedWith (.invalidOpcode s.pc w) s) := by
  rw [execWord, (decodeWord_eq_none_iff w).2 h]
  rfl

/-- Two bytes decode to the instruction of their word (R65, R90). -/
theorem decode_two_eq_instr {hi lo : Byte} {i : Instr} (h : decode [hi, lo] = .instr i []) :
    decodeWord (wordOfBytes hi lo) = some i := by
  rw [decode_bytes] at h
  cases hd : decodeWord (wordOfBytes hi lo) with
  | none => simp [hd] at h
  | some j => simpa [hd] using h

/-- Settles O7: the fetched word decodes to nothing. -/
theorem illegalWordRaisesInvalidOpcode : Obligations.IllegalWordRaisesInvalidOpcode := by
  rintro s w hready hpc rfl hw
  rw [step_of_ready hready, runInstruction_of_inMemory hpc, execWord_of_illegal hw]

/-- Settles O5: the two bytes at the pc, or the fetch's own fault. -/
theorem fetchIsBigEndianAndBounded : Obligations.FetchIsBigEndianAndBounded := by
  constructor
  · intro s hpc
    exact ⟨_, fetchWord_ok hpc, wordOfBytes_toNat _ _⟩
  · intro s hready hpc
    rw [step_of_ready hready, runInstruction, fetchWord_past hpc]
    rfl

/-- R96, for the engine's step; neither the fetch nor the decoder reads the schedule. -/
theorem engineStep_of_decode {s : State} {i : Instr} (hrun : s.status = .running)
    (hfont : s.mem.fontLoaded = true) (hprog : s.mem.programLoaded = true) (hpc : s.pcNat + 1 < Config.memSize)
    (hdec : decode [s.mem.read s.pcNat, s.mem.read (s.pcNat + 1)] = .instr i []) : engineStep s = exec i s := by
  rw [engineStep_runs hrun hfont hprog, runInstruction_of_inMemory hpc,
    execWord_of_decode (decode_two_eq_instr hdec)]

/-- Settles O6: the engine's step, of an empty schedule or of a written-down call. -/
theorem stepRunsDecodedInstruction : Obligations.StepRunsDecodedInstruction := by
  intro s i hrun hfont hprog hpc hdec
  constructor
  · intro hsched
    rw [step_of_empty hsched, engineStep_of_decode hrun hfont hprog hpc hdec]
  · intro rest hsched
    rw [step_of_call hsched]
    exact engineStep_of_decode hrun hfont hprog hpc hdec

/-- Settles O46: the engine's step, of an empty schedule or of a written-down call. -/
theorem awaitingStepIsOneCheck : Obligations.AwaitingStepIsOneCheck := by
  intro s x hwait hfont hprog
  constructor
  · intro hsched
    rw [step_of_empty hsched, engineStep_checks hwait hfont hprog, Config.keyWaitMode]
  · intro rest hsched
    rw [step_of_call hsched]
    exact engineStep_checks hwait hfont hprog

/-! ### Every instruction and every move answers a next state (R94, R252, R253, R275) -/

theorem commit_answers_next (i : Instr) (s : State) (eff : Effect) : ∃ t, commit i s eff = .next t := by
  rcases commit_cases i s eff with ⟨t, npc, r, -, -, hc⟩ | ⟨t, npc, r, -, -, hc⟩ | ⟨e, -, hc⟩
  all_goals exact ⟨_, hc⟩

theorem exec_answers_next (i : Instr) (s : State) : ∃ t, exec i s = .next t := by
  obtain ⟨eff, h⟩ := exec_is_commit i s
  rw [h]
  exact commit_answers_next i s eff

/-- R94, R132: only the exit trap halts, with its own value. -/
theorem returned_cases (i : Instr) :
    returned i = .continued ∨ ∃ nnn, i = .exit nnn ∧ returned i = .halted nnn := by
  cases i with
  | exit nnn => exact .inr ⟨nnn, rfl, rfl⟩
  | _ => exact .inl rfl

/-- Settles O12: by the two answers of an instruction, a taken fault or the committed working copy. -/
theorem everyInstructionAnswersNext : Obligations.EveryInstructionAnswersNext := by
  intro i s
  obtain ⟨t, h⟩ := exec_answers_next i s
  refine ⟨t, h, ?_⟩
  rcases exec_next_cases h with ⟨e, -, rfl⟩ | ⟨-, npc, -, rfl⟩
  · exact .inr (.inr ⟨e, rfl, rfl⟩)
  · exact (returned_cases i).imp_right .inl

/-- The move answers a next state, in which the host's coming calls are `calls`. -/
def AnswersWithSchedule (o : StepOutcome) (calls : List HostCall) : Prop :=
  ∃ t, o = .next t ∧ t.schedule = calls

theorem exec_keeps_schedule (i : Instr) (s : State) : AnswersWithSchedule (exec i s) s.schedule := by
  obtain ⟨t, h⟩ := exec_answers_next i s
  exact ⟨t, h, exec_frame (·.schedule) (fun _ _ _ _ => rfl) (workingCopy_schedule i s) h⟩

theorem runInstruction_keeps_schedule (s : State) : AnswersWithSchedule (runInstruction s) s.schedule := by
  rcases runInstruction_cases s with ⟨w, i, -, -, hr⟩ | ⟨w, -, -, hr⟩ | ⟨a, -, hr⟩
  · rw [hr]
    exact exec_keeps_schedule i s
  · exact ⟨_, hr, rfl⟩
  · exact ⟨_, hr, rfl⟩

theorem completeWait_keeps_schedule (x k : RegIdx) (s : State) :
    AnswersWithSchedule (completeWait x k s) s.schedule := by
  obtain ⟨t, h⟩ : ∃ t, completeWait x k s = .next t := commit_answers_next _ _ _
  refine ⟨t, h, ?_⟩
  rcases commit_done_next h with rfl | ⟨-, rfl⟩
  · rfl
  · rfl

theorem keyWaitCheck_keeps_schedule (mode : Config.KeyWaitMode) (x : RegIdx) (s : State) :
    AnswersWithSchedule (keyWaitCheck mode x s) s.schedule := by
  rcases keyWaitCheck_cases mode x s with ⟨-, hc⟩ | ⟨k, -, hc⟩
  · exact ⟨_, hc, rfl⟩
  · rw [hc]
    exact completeWait_keeps_schedule x k s

theorem engineStep_keeps_schedule (s : State) : AnswersWithSchedule (engineStep s) s.schedule := by
  rcases engineStep_cases s with ⟨e, -, hc⟩ | ⟨-, -, hc⟩ | ⟨x, -, -, hc⟩ | ⟨-, -, hc⟩
  · exact ⟨_, hc, rfl⟩
  · exact ⟨_, hc, rfl⟩
  · rw [hc]
    exact keyWaitCheck_keeps_schedule _ x s
  · rw [hc]
    exact runInstruction_keeps_schedule s

theorem hostLoad_schedule (offset : Nat) (bytes : List Byte) (s : State) :
    (hostLoad offset bytes s).schedule = s.schedule := by
  rw [hostLoad_eq]

theorem hostLoadProgram_schedule (bytes : List Byte) (s : State) :
    (hostLoadProgram bytes s).schedule = s.schedule := by
  unfold hostLoadProgram
  split
  · rfl
  · exact hostLoad_schedule _ bytes s

/-- A call of the host leaves the calls after it (log 3, log 14). -/
theorem hostCall_keeps_schedule (c : HostCall) (s : State) : AnswersWithSchedule (hostCall c s) s.schedule := by
  cases c with
  | construct | reset | writeKeys keys | tick => exact ⟨_, rfl, rfl⟩
  | loadFont bytes => exact ⟨_, rfl, hostLoad_schedule _ bytes s⟩
  | loadProgram bytes => exact ⟨_, rfl, hostLoadProgram_schedule bytes s⟩
  | load offset bytes => exact ⟨_, rfl, hostLoad_schedule offset bytes s⟩
  | step => exact engineStep_keeps_schedule s

/-- Settles O60: by the move, an engine step or the head of the host's schedule. -/
theorem everyMoveAnswersNext : Obligations.EveryMoveAnswersNext := by
  intro s
  cases hsched : s.schedule with
  | nil =>
    rw [step_of_empty hsched, List.tail_nil, ← hsched]
    exact engineStep_keeps_schedule s
  | cons c rest =>
    rw [step_of_call hsched]
    exact hostCall_keeps_schedule c { s with schedule := rest }

end Sys2Proof.Proofs
end

section
/-! PROOF. The next pc past the end of memory (30_encoding.md R97, R98; D2): the sequential advance and the skips. -/

namespace Sys2Proof.Proofs
open Sys2Proof.Machine Sys2Proof.Spec

/-- The meaning of `i` at `s` forms the next pc `npc`, raising no fault of its own. -/
def FormsNextPc (i : Instr) (s : State) (npc : Nat) : Prop :=
  ∃ t r, exec i s = commit i s (.done t npc r)

/-- R97, for every instruction: nothing of the working copy is committed. -/
theorem exec_past_end {i : Instr} {s : State} {npc : Nat} (h : FormsNextPc i s npc) (hn : Config.memSize ≤ npc) :
    exec i s = .next (faultedWith (outOfBounds i s npc) s) := by
  obtain ⟨t, r, h⟩ := h
  rw [h, commit_past hn]
  rfl

/-- R64: a range check that passes leaves the effect. -/
theorem guardRange_inRange {base count : Nat} (h : count = 0 ∨ base + count ≤ Config.memSize) (i : Instr) (s : State)
    (eff : Effect) : guardRange i s base count eff = eff := by
  rw [guardRange, rangeFault_eq_none h]

/-- D6, D7: a digit check that passes leaves the effect of the digit. -/
theorem withDigit_of_le {b : Byte} (h : b.toNat ≤ 0xF) (i : Instr) (s : State) (k : RegIdx → Effect) :
    withDigit i s b k = k (b.setWidth 4) := by
  rw [withDigit, hexDigit_eq_some h]

/-- An access in range forms `pc + 2` (R98). -/
theorem formsNextPc_of_guardRange {i : Instr} {s t : State} {base count : Nat}
    (hr : count = 0 ∨ base + count ≤ Config.memSize)
    (h : exec i s = commit i s (guardRange i s base count (advance s t))) : FormsNextPc i s (s.pcNat + 2) :=
  ⟨t, .continued, by rw [h, guardRange_inRange hr, advance]⟩

theorem formsNextPc_ldF {s : State} {x : RegIdx} (hx : (s.getV x).toNat ≤ 0xF) :
    FormsNextPc (.ldF x) s (s.pcNat + 2) :=
  ⟨_, _, congrArg (commit _ s) (withDigit_of_le hx _ s _)⟩

/-- Settles O13: each instruction forms `pc + 2`, the checked ones where their check passes. -/
theorem sequentialAdvancePastTheEndFaults : Obligations.SequentialAdvancePastTheEndFaults := by
  intro s x y nn nnn n hpc
  refine ⟨fun i hi => exec_past_end ?unchecked hpc, fun hx => exec_past_end (formsNextPc_ldF hx) hpc,
    fun hr => exec_past_end ?ldB hpc, fun hr => ⟨exec_past_end ?stRegs hpc, exec_past_end ?ldRegs hpc⟩,
    fun hr => exec_past_end ?drw hpc⟩
  case unchecked =>
    simp only [List.mem_cons, List.not_mem_nil, or_false] at hi
    rcases hi with rfl | rfl | rfl | rfl | rfl | rfl | rfl | rfl | rfl | rfl | rfl | rfl | rfl | rfl | rfl | rfl | rfl |
      rfl | rfl
    all_goals exact ⟨_, _, rfl⟩
  case ldB => exact formsNextPc_of_guardRange (.inr hr) rfl
  case stRegs => exact formsNextPc_of_guardRange (.inr hr) rfl
  case ldRegs => exact formsNextPc_of_guardRange (.inr hr) rfl
  case drw =>
    have hr' : n.toNat = 0 ∨ s.indexNat + n.toNat ≤ Config.memSize := hr.imp_left (congrArg BitVec.toNat)
    exact formsNextPc_of_guardRange hr' rfl

/-- `i` at `s` is a skip with condition `c`: its key checks passed, it leaves the state and one of the two next pcs. -/
def IsSkip (i : Instr) (s : State) (c : Bool) : Prop := exec i s = commit i s (skipIf c s)

theorem isSkip_skp {s : State} {x : RegIdx} (hx : (s.getV x).toNat ≤ 0xF) :
    IsSkip (.skp x) s (s.keys.pressed ((s.getV x).setWidth 4)) :=
  congrArg (commit _ s) (withDigit_of_le hx _ s _)

theorem isSkip_sknp {s : State} {x : RegIdx} (hx : (s.getV x).toNat ≤ 0xF) :
    IsSkip (.sknp x) s (!s.keys.pressed ((s.getV x).setWidth 4)) :=
  congrArg (commit _ s) (withDigit_of_le hx _ s _)

/-- R98: `pc + 4` when taken, else `pc + 2`. -/
theorem formsNextPc_of_isSkip {i : Instr} {s : State} {c : Bool} (h : IsSkip i s c) :
    FormsNextPc i s (if c then s.pcNat + 4 else s.pcNat + 2) :=
  ⟨s, .continued, h⟩

/-- Settles O14: each of the six is a skip with its condition, which forms the next pc. -/
theorem skipPastTheEndFaults : Obligations.SkipPastTheEndFaults := by
  intro s x y nn i c hi
  have hskip : IsSkip i s c := by
    rcases hi with ⟨rfl, rfl⟩ | ⟨rfl, rfl⟩ | ⟨rfl, rfl⟩ | ⟨rfl, rfl⟩ | ⟨rfl, hx, rfl⟩ | ⟨rfl, hx, rfl⟩
    · exact rfl
    · exact rfl
    · exact rfl
    · exact rfl
    · exact isSkip_skp hx
    · exact isSkip_sknp hx
  have hforms := formsNextPc_of_isSkip hskip
  constructor
  · rintro rfl hpc
    exact exec_past_end hforms hpc
  · rintro rfl hpc
    exact exec_past_end hforms hpc

end Sys2Proof.Proofs
end

section
/-! PROOF. Control flow (40_control_flow.md R131 to R139): the jumps, the call stack and the compares. -/

namespace Sys2Proof.Proofs
open Sys2Proof.Machine Sys2Proof.Spec

/-! ### A transfer of control to an address in memory (R97, R98, R130) -/

/-- R97: a next pc in memory is committed with the working copy. -/
theorem exec_goTo {i : Instr} {s t : State} {npc : Nat} (h : exec i s = commit i s (transfer t npc))
    (hn : npc < Config.memSize) : exec i s = .next (goTo npc t) := by
  rw [h, transfer, commit_done hn, goTo]

/-- R92: every 12-bit address is in memory, so no jump to one faults. -/
theorem target_lt_memSize (nnn : Addr12) : target nnn < Config.memSize := nnn.isLt

/-- Settles O18: the halting effect has the next pc `pc + 2`. -/
theorem exitTrapHaltsWithItsValue : Obligations.ExitTrapHaltsWithItsValue := by
  intro s nnn hpc
  have hexec : exec (.exit nnn) s = commit (.exit nnn) s (.done s (s.pcNat + 2) (.halted nnn)) := rfl
  rw [hexec, commit_done hpc]

/-- Settles O19: a transfer to a 12-bit address. -/
theorem jumpGoesToItsTarget : Obligations.JumpGoesToItsTarget := by
  intro s nnn
  exact exec_goTo rfl (target_lt_memSize nnn)

/-- Settles O20: a transfer to the sum, which is committed or past the end. -/
theorem computedJumpAddsV0 : Obligations.ComputedJumpAddsV0 := by
  intro s nnn
  constructor
  · intro hsum
    exact exec_goTo rfl hsum
  · intro hsum
    exact exec_past_end ⟨s, .continued, rfl⟩ hsum

/-! ### The compares (R98, R135 to R138) -/

/-- R98: a skip leaves the state, with the next pc of its condition. -/
theorem skipsWhen_of_isSkip {i : Instr} {s : State} {b : Bool} {c : Prop} (h : IsSkip i s b) (hb : b = true ↔ c) :
    SkipsWhen i s c := by
  constructor
  · intro hc hpc
    obtain rfl : b = true := hb.2 hc
    exact exec_goTo h hpc
  · intro hc hpc
    obtain rfl : b = false := Bool.eq_false_iff.2 (mt hb.1 hc)
    exact exec_goTo h hpc

/-- Settles O21: each compare is a skip, with the Boolean form of its condition. -/
theorem comparesSkipOnTheirCondition : Obligations.ComparesSkipOnTheirCondition := by
  intro s x y nn
  refine ⟨?seImm, ?sneImm, ?seReg, ?sneReg⟩
  case seImm => exact skipsWhen_of_isSkip (b := s.getV x == nn) rfl beq_iff_eq
  case sneImm => exact skipsWhen_of_isSkip (b := s.getV x != nn) rfl bne_iff_ne
  case seReg => exact skipsWhen_of_isSkip (b := s.getV x == s.getV y) rfl beq_iff_eq
  case sneReg => exact skipsWhen_of_isSkip (b := s.getV x != s.getV y) rfl bne_iff_ne

/-! ### The call stack (R27) -/

/-- The state whose stack has slot `k` as its top entry, holding `w`; the stack of `s` is otherwise as it was. -/
def withTop (k : Fin Config.stackDepth) (w : Config.StackEntry) (s : State) : State :=
  { s with stack := s.stack.set k.val w k.isLt, sp := k.succ }

theorem get_stack_withTop (k j : Fin Config.stackDepth) (w : Config.StackEntry) (s : State) :
    (withTop k w s).stack.get j = if j.val = k.val then w else s.stack.get j := by
  rw [withTop, Vector.get_eq_getElem, Vector.getElem_set]
  exact if_congr eq_comm rfl rfl

/-- R27: a push on a stack with room fills the first free slot. -/
theorem push_eq_withTop {s : State} {k : Fin Config.stackDepth} (h : s.sp.val = k.val) (w : Config.StackEntry) :
    s.push w = some (withTop k w s) := by
  have hk : s.sp = k.castSucc := Fin.ext h
  rw [State.push, dif_pos (h ▸ k.isLt)]
  simp only [hk]
  rfl

theorem push_eq_none {s : State} (h : s.sp.val = Config.stackDepth) (w : Config.StackEntry) : s.push w = none :=
  dif_neg h.not_lt

/-- R27: a pop takes the entry in the slot below the pointer. -/
theorem pop_eq_some {s : State} {k : Fin Config.stackDepth} (h : s.sp.val = k.val + 1) :
    s.pop = some (s.stack.get k, { s with sp := k.castSucc }) := by
  have hk : s.sp = k.succ := Fin.ext h
  rw [State.pop, dif_pos (h ▸ Nat.succ_pos _)]
  simp only [hk]
  rfl

theorem pop_eq_none {s : State} (h : s.sp.val = 0) : s.pop = none := dif_neg h.not_gt

/-! ### CALL and RET (R131, R134) -/

theorem exec_call_withTop {s : State} {k : Fin Config.stackDepth} (h : s.sp.val = k.val) (nnn : Addr12) :
    exec (.call nnn) s = .next (goTo nnn.toNat (withTop k (BitVec.ofNat 16 (s.pcNat + 2)) s)) := by
  refine exec_goTo ?_ (target_lt_memSize nnn)
  rw [exec, execCall, push_eq_withTop h, target]

theorem exec_call_full {s : State} (h : s.sp.val = Config.stackDepth) (nnn : Addr12) :
    exec (.call nnn) s = .next (faultedWith (.stackOverflow s.pc (encode (.call nnn))) s) := by
  rw [exec, execCall, push_eq_none h, commit_raised, takeFault_eq_next]

/-- R131: the top entry is the next pc, whether it is in memory or not. -/
theorem exec_ret_transfers {s : State} {k : Fin Config.stackDepth} (h : s.sp.val = k.val + 1) :
    exec .ret s = commit .ret s (transfer { s with sp := k.castSucc } (s.stack.get k).toNat) := by
  rw [exec, execRet, pop_eq_some h]

theorem exec_ret_empty {s : State} (h : s.sp.val = 0) :
    exec .ret s = .next (faultedWith (.stackUnderflow s.pc (encode .ret)) s) := by
  rw [exec, execRet, pop_eq_none h, commit_raised, takeFault_eq_next]

/-- Settles O15: the popped address is in memory or past it; else the stack is empty. -/
theorem returnPopsTheSavedAddress : Obligations.ReturnPopsTheSavedAddress := by
  intro s
  refine ⟨fun k hsp => ⟨fun haddr => ?inMemory, fun haddr => ?past⟩, exec_ret_empty⟩
  case inMemory => exact ⟨_, exec_goTo (exec_ret_transfers hsp) haddr, rfl, rfl⟩
  case past => exact exec_past_end ⟨_, _, exec_ret_transfers hsp⟩ haddr

/-- Settles O16: the stack has room, so the push fills its first free slot, or it is full. -/
theorem callPushesTheNextAddress : Obligations.CallPushesTheNextAddress := by
  intro s nnn
  refine ⟨fun hroom => ?room, fun hfull => ?full⟩
  case room =>
    exact ⟨_, exec_call_withTop (k := ⟨s.sp.val, hroom⟩) rfl nnn, rfl, fun k => get_stack_withTop _ k _ s, rfl⟩
  case full =>
    have hword : encode (.call nnn) = word 0x2 0 0 nnn.toNat := (word_eq_encodeNNN 0x2#4 nnn).symm
    rw [exec_call_full hfull, hword]

/-- Where the top entry is an address in memory, RET goes to it and takes the entry off again. -/
theorem exec_ret_withTop {s : State} {k : Fin Config.stackDepth} (h : s.sp.val = k.val) (npc : Nat)
    {w : Config.StackEntry} (hw : w.toNat < Config.memSize) :
    exec .ret (goTo npc (withTop k w s)) = .next (goTo w.toNat { s with stack := (withTop k w s).stack }) := by
  have htop : (goTo npc (withTop k w s)).stack.get k = w := (get_stack_withTop k k w s).trans (if_pos rfl)
  have hsp : s.sp = k.castSucc := Fin.ext h
  rw [exec_goTo (exec_ret_transfers (k := k) rfl) (by rwa [htop]), htop]
  simp only [goTo, withTop, hsp]

/-- Settles O17: the return pops the slot that the call filled, whose entry is `pc + 2`. -/
theorem callThenReturnComesBack : Obligations.CallThenReturnComesBack := by
  intro s nnn hroom hpc
  obtain ⟨k, hk⟩ : ∃ k : Fin Config.stackDepth, s.sp.val = k.val := ⟨⟨_, hroom⟩, rfl⟩
  have hsaved : (BitVec.ofNat 16 (s.pcNat + 2)).toNat = s.pcNat + 2 := pcNat_plusTwo s hpc
  have hret := exec_ret_withTop hk nnn.toNat (hsaved.trans_lt hpc)
  rw [hsaved] at hret
  refine ⟨_, _, exec_call_withTop hk nnn, hret, rfl, fun j hj => ?_⟩
  exact (get_stack_withTop k j _ s).trans (if_neg (hk ▸ hj))

end Sys2Proof.Proofs
end

section
/-! PROOF. Register loads and arithmetic (41_alu.md R160 to R175): the registers that each instruction of the family
leaves. -/

namespace Sys2Proof.Proofs
open Sys2Proof.Machine Sys2Proof.Spec

/-! ### Completing with a register write (R96, R98, R161) -/

/-- R98: an unchecked instruction with `pc + 2` in memory commits its working copy. -/
theorem exec_plusTwo {i : Instr} {s t : State} (h : exec i s = commit i s (advance s t))
    (hpc : s.pcNat + 2 < Config.memSize) : exec i s = .next (plusTwo s t) := by
  rw [h, advance, commit_done hpc, plusTwo]

/-- A working copy that differs from `s` in the registers alone. -/
theorem completesWithRegs_of_advance {i : Instr} {s t : State} {f : RegIdx → Byte}
    (h : exec i s = commit i s (advance s t)) (hpc : s.pcNat + 2 < Config.memSize) (ht : t = { s with v := t.v })
    (hf : ∀ r, t.getV r = f r) : CompletesWithRegs i s f := by
  refine ⟨t.v, hf, ?_⟩
  rw [← ht]
  exact exec_plusTwo h hpc

theorem completesWithRegs_of_setV {i : Instr} {s : State} {x : RegIdx} {b : Byte}
    (h : exec i s = commit i s (advance s (s.setV x b))) (hpc : s.pcNat + 2 < Config.memSize) :
    CompletesWithRegs i s (fun r => if r = x then b else s.getV r) :=
  completesWithRegs_of_advance h hpc rfl fun r => getV_setV s x r b

theorem completesWithRegs_of_setResultThenFlag {i : Instr} {s : State} {x : RegIdx} {b : Byte} {flag : Bool}
    (h : exec i s = commit i s (advance s (s.setResultThenFlag x b flag))) (hpc : s.pcNat + 2 < Config.memSize) :
    CompletesWithRegs i s (fun r => if r = regF then flagByte flag else if r = x then b else s.getV r) :=
  completesWithRegs_of_advance h hpc rfl fun r => getV_setResultThenFlag s x r b flag

/-! ### Loads, logic and the random byte (R162 to R168, R175) -/

/-- Settles O22: one register write each; the sum of two bytes is the sum of their values, cut to 8 bits. -/
theorem immediateLoadAndAdd : Obligations.ImmediateLoadAndAdd := by
  intro s x nn hpc
  refine ⟨completesWithRegs_of_setV rfl hpc, ?addImm⟩
  rw [← BitVec.add_def]
  exact completesWithRegs_of_setV rfl hpc

/-- Settles O23: one register write each. -/
theorem copyAndLogicWriteOneRegister : Obligations.CopyAndLogicWriteOneRegister := by
  intro s x y hpc
  refine ⟨?ldReg, ?or, ?and, ?xor⟩
  all_goals exact completesWithRegs_of_setV rfl hpc

/-- Settles O28: one register write, of the byte drawn at the counter before the step. -/
theorem randomByteIsMasked : Obligations.RandomByteIsMasked := by
  intro s x nn hpc
  exact ⟨Config.randomByte s.draws, _, rfl, fun r => getV_setV s x r _, exec_plusTwo rfl hpc⟩

/-! ### The flags of addition and subtraction (R160, R169 to R171, R173) -/

theorem flagByte_carryOut (a b : Byte) : flagByte (carryOut a b) = if a.toNat + b.toNat > 255 then 1 else 0 := by
  rw [carryOut, flagByte]
  exact if_congr decide_eq_true_iff rfl rfl

theorem flagByte_notBorrow (a b : Byte) : flagByte (notBorrow a b) = if a.toNat ≥ b.toNat then 1 else 0 := by
  rw [notBorrow, flagByte]
  exact if_congr decide_eq_true_iff rfl rfl

/-- R171: the difference wraps, written with the 256 added first. -/
theorem sub_eq_ofNat (a b : Byte) : a - b = BitVec.ofNat 8 (256 + a.toNat - b.toNat) := by
  have hb : b.toNat < 256 := b.isLt
  rw [BitVec.sub_def]
  congr 1
  omega

/-- Settles O24: the result and its carry. -/
theorem addSetsCarry : Obligations.AddSetsCarry := by
  intro s x y hpc
  rw [← BitVec.add_def, ← flagByte_carryOut]
  exact completesWithRegs_of_setResultThenFlag rfl hpc

/-- Settles O25: the result and its not-borrow, the operands exchanged in SUBN. -/
theorem subtractSetsNotBorrow : Obligations.SubtractSetsNotBorrow := by
  intro s x y hpc
  simp only [← sub_eq_ofNat, ← flagByte_notBorrow]
  exact ⟨completesWithRegs_of_setResultThenFlag rfl hpc, completesWithRegs_of_setResultThenFlag rfl hpc⟩

/-! ### The shifts (R161, R172, R174) -/

/-- What a shift of VF itself leaves in VF, from its old value `b` (R161; D10). -/
def aliasedShift (mode : Config.VfAlias) (out shift : Byte → Byte) (b : Byte) : Byte :=
  match mode with
  | .sequential => shift (out b)
  | .operandsFirst => shift b
  | .flagLast => out b

/-- R161: a register after a shift of VF itself. -/
theorem getV_setShift_regF (mode : Config.VfAlias) (s : State) (out shift : Byte → Byte) (r : RegIdx) :
    (s.setShift mode regF out shift).getV r =
      if r = regF then aliasedShift mode out shift (s.getV regF) else s.getV r := by
  by_cases hr : r = regF
  · subst hr
    cases mode <;> simp [State.setShift, aliasedShift]
  · cases mode <;> simp [State.setShift, getV_setV, hr]

/-- A shift of any register in the default reading of VF_ALIAS: VF receives `aliased` when it is the register shifted,
else `flag`, and `Vx` the `result`. -/
theorem completesWithRegs_of_setShift {i : Instr} {s : State} {x : RegIdx} {out shift : Byte → Byte}
    {aliased flag result : Byte} (h : exec i s = commit i s (advance s (s.setShift Config.vfAlias x out shift)))
    (hpc : s.pcNat + 2 < Config.memSize) (haliased : shift (out (s.getV x)) = aliased) (hflag : out (s.getV x) = flag)
    (hresult : shift (s.getV x) = result) :
    CompletesWithRegs i s (fun r =>
      if r = regF then (if x = regF then aliased else flag) else if r = x then result else s.getV r) := by
  refine completesWithRegs_of_advance h hpc (setShift_eq _ s x out shift) fun r => ?_
  by_cases hx : x = regF
  · subst hx
    have hvf : aliasedShift Config.vfAlias out shift (s.getV regF) = aliased := haliased
    rw [getV_setShift_regF, hvf, if_pos rfl]
    split <;> rfl
  · rw [getV_setShift _ s hx, if_neg hx, hflag, hresult]

theorem toNat_lowBit (b : Byte) : (lowBit b).toNat = b.toNat % 2 := by
  rw [lowBit, BitVec.toNat_and]
  exact Nat.and_one_is_mod _

theorem toNat_shiftRight_one (b : Byte) : (b >>> 1).toNat = b.toNat / 2 := by
  rw [BitVec.toNat_ushiftRight, Nat.shiftRight_eq_div_pow]

theorem toNat_shiftLeft_one (b : Byte) : (b <<< 1).toNat = 2 * b.toNat % 256 := by
  rw [BitVec.toNat_shiftLeft, Nat.shiftLeft_eq, Nat.mul_comm]

theorem toNat_highBit (b : Byte) : (highBit b).toNat = b.toNat / 128 := by
  have hb : b.toNat < 256 := b.isLt
  have hlow : (lowBit (b >>> 7)).toNat = b.toNat / 128 % 2 := by
    rw [toNat_lowBit, BitVec.toNat_ushiftRight, Nat.shiftRight_eq_div_pow]
  exact hlow.trans (Nat.mod_eq_of_lt (by omega))

/-- R161: SHR of VF in the reading `sequential` shifts the bit out a second time. -/
theorem toNat_lowBit_shiftRight_one (b : Byte) : (lowBit b >>> 1).toNat = 0 := by
  rw [toNat_shiftRight_one, toNat_lowBit]
  omega

/-- R161: SHL of VF in the reading `sequential` shifts the flag itself. -/
theorem toNat_highBit_shiftLeft_one (b : Byte) : (highBit b <<< 1).toNat = 2 * (b.toNat / 128) := by
  have hb : b.toNat < 256 := b.isLt
  rw [toNat_shiftLeft_one, toNat_highBit]
  omega

/-- Settles O26: the two shifts in the default reading, each byte by its value. -/
theorem shiftsMoveOutOneBit : Obligations.ShiftsMoveOutOneBit := by
  intro s x y hpc
  refine ⟨completesWithRegs_of_setShift rfl hpc ?zero ?low ?half,
    completesWithRegs_of_setShift rfl hpc ?flag ?high ?double⟩
  case zero => exact BitVec.eq_of_toNat_eq (toNat_lowBit_shiftRight_one _)
  case low => exact (BitVec.toNat_eq_nat.1 (toNat_lowBit _)).2
  case half => exact (BitVec.toNat_eq_nat.1 (toNat_shiftRight_one _)).2
  case flag => exact (BitVec.toNat_eq_nat.1 (toNat_highBit_shiftLeft_one _)).2
  case high => exact (BitVec.toNat_eq_nat.1 (toNat_highBit _)).2
  case double => exact BitVec.eq_of_toNat_eq (toNat_shiftLeft_one _)

/-- Settles O27: VF by the table, each entry by its value. -/
theorem shiftOfVfInEachReading : Obligations.ShiftOfVfInEachReading := by
  intro s mode
  rw [getV_setShift_regF, getV_setShift_regF, if_pos rfl, if_pos rfl]
  cases mode with
  | sequential => exact ⟨toNat_lowBit_shiftRight_one _, toNat_highBit_shiftLeft_one _⟩
  | operandsFirst => exact ⟨toNat_shiftRight_one _, toNat_shiftLeft_one _⟩
  | flagLast => exact ⟨toNat_lowBit _, toNat_highBit _⟩

end Sys2Proof.Proofs
end

section
/-! PROOF. The index register and memory instructions (42_index_memory.md R190 to R195). -/

namespace Sys2Proof.Proofs
open Sys2Proof.Machine Sys2Proof.Spec

/-! ### The decimal digits and the block of registers (R193 to R195) -/

/-- R193: the three digits by the byte's value. -/
theorem bcdDigits_eq (b : Byte) :
    bcdDigits b =
      [BitVec.ofNat 8 (b.toNat / 100), BitVec.ofNat 8 (b.toNat / 10 % 10), BitVec.ofNat 8 (b.toNat % 10)] := by
  have hhundreds : b / 100#8 = BitVec.ofNat 8 (b.toNat / 100) := BitVec.udiv_def
  have htens : (b / 10#8) % 10#8 = BitVec.ofNat 8 (b.toNat / 10 % 10) := by
    rw [BitVec.umod_def, BitVec.toNat_udiv]
    rfl
  have hunits : b % 10#8 = BitVec.ofNat 8 (b.toNat % 10) := BitVec.umod_def
  rw [bcdDigits, hhundreds, htens, hunits]

/-- A read after three bytes are written. -/
theorem read_writeBytes_three {m : Memory} (hm : m.wf = true) {base : Nat} (h : base + 3 ≤ Config.memSize)
    (b₀ b₁ b₂ : Byte) (a : Nat) :
    (m.writeBytes base [b₀, b₁, b₂]).read a =
      if a = base then b₀ else if a = base + 1 then b₁ else if a = base + 2 then b₂ else m.read a := by
  by_cases hin : base ≤ a ∧ a < base + 3
  · obtain ⟨k, hk, rfl⟩ : ∃ k < 3, a = base + k := ⟨a - base, by omega, by omega⟩
    rw [read_writeBytes_inside hm h hk]
    interval_cases k
    all_goals simp
  · rw [if_neg (by omega), if_neg (by omega), if_neg (by omega)]
    exact read_writeBytes_outside hm h (by simp only [List.length_cons, List.length_nil]; omega)

/-- R195: a register after a block of memory is loaded. -/
theorem getV_loadedRegs (s : State) (x r : RegIdx) :
    (s.setRegsFrom 0 (s.mem.readBytes s.indexNat (x.toNat + 1))).getV r =
      if r.toNat ≤ x.toNat then s.mem.read (s.indexNat + r.toNat) else s.getV r := by
  have hx : x.toNat < 16 := x.isLt
  rw [getV_setRegsFrom _ _ _ (by rw [Memory.readBytes_length]; omega), Memory.readBytes_length]
  by_cases hr : r.toNat ≤ x.toNat
  · rw [if_pos (by omega), if_pos hr, Nat.sub_zero, Memory.readBytes_getD _ _ _ _ (Nat.lt_succ_of_le hr)]
  · rw [if_neg (by omega), if_neg hr]

/-- R194: the byte that `Fx55` writes for register `r`. -/
theorem read_storedReg {s : State} {x r : RegIdx} (hs : s.mem.wf = true)
    (hrange : s.indexNat + (x.toNat + 1) ≤ Config.memSize) (hr : r.toNat ≤ x.toNat) :
    (s.mem.writeBytes s.indexNat (s.regsUpTo x)).read (s.indexNat + r.toNat) = s.getV r := by
  rw [read_storedRegs hs hrange hr, BitVec.ofNat_toNat, BitVec.setWidth_eq]

/-! ### The instructions in range (R193, R195) -/

theorem exec_ldB_inRange {s : State} (x : RegIdx) (hrange : s.indexNat + 3 ≤ Config.memSize)
    (hpc : s.pcNat + 2 < Config.memSize) :
    exec (.ldB x) s = .next (plusTwo s { s with mem := s.mem.writeBytes s.indexNat (bcdDigits (s.getV x)) }) :=
  commit_guardRange_advance hrange hpc

theorem exec_ldRegs_inRange {s : State} {x : RegIdx} (hrange : s.indexNat + (x.toNat + 1) ≤ Config.memSize)
    (hpc : s.pcNat + 2 < Config.memSize) :
    exec (.ldRegs x) s = .next (plusTwo s (s.setRegsFrom 0 (s.mem.readBytes s.indexNat (x.toNat + 1)))) :=
  commit_guardRange_advance hrange hpc

/-- Settles O31: the three digits are written in range; past the end, the range check faults with the instruction's own
word. -/
theorem decimalDigitsAreStored : Obligations.DecimalDigitsAreStored := by
  intro s x
  refine ⟨fun hs hrange hpc => ⟨_, exec_ldB_inRange x hrange hpc, fun a => ?stored⟩, fun hpast => ?past⟩
  case stored =>
    rw [bcdDigits_eq]
    exact read_writeBytes_three hs hrange _ _ _ a
  case past =>
    have hword : word 0xF x.toNat 0x3 0x3 = encode (.ldB x) := word_eq_encodeXNN 0xF#4 x 0x33#8
    rw [hword]
    exact exec_access_past (i := .ldB x) (Nat.succ_pos 2) hpast

/-- Settles O32: the block holds the registers, and the bytes outside it are the old ones. -/
theorem registersAreStored : Obligations.RegistersAreStored := by
  intro s x hs hrange hpc
  refine ⟨_, exec_stRegs_inRange hrange hpc, fun r hr => read_storedReg hs hrange hr, fun a ha => ?outside⟩
  case outside => exact workingCopy_read_outside (i := .stRegs x) hs (.inr hrange) ha

/-- Settles O33: the load writes registers only, each by its byte of the block. -/
theorem registersAreLoaded : Obligations.RegistersAreLoaded := by
  intro s x hrange hpc
  refine ⟨_, getV_loadedRegs s x, ?_⟩
  rw [exec_ldRegs_inRange hrange hpc, setRegsFrom_eq]

/-- Settles O35: the load reads at the same I the bytes that the store wrote there. -/
theorem storeThenLoadRestoresRegisters : Obligations.StoreThenLoadRestoresRegisters := by
  intro s x hs hrange hpc
  refine ⟨_, exec_stRegs_inRange hrange hpc, rfl, fun u hindex hblock hupc => ?_⟩
  have hsame : u.indexNat = s.indexNat := congrArg BitVec.toNat hindex
  refine ⟨_, exec_ldRegs_inRange (by rwa [hsame]) hupc, ?index, fun r hr => ?restored⟩
  case index => exact (setRegsFrom_index u _ _).trans hindex
  case restored =>
    have hload := getV_loadedRegs u x r
    rw [if_pos hr, hsame] at hload
    calc
      (u.setRegsFrom 0 (u.mem.readBytes u.indexNat (x.toNat + 1))).getV r
        = u.mem.read (s.indexNat + r.toNat) := by rw [hsame, hload]
      _ = (s.mem.writeBytes s.indexNat (s.regsUpTo x)).read (s.indexNat + r.toNat) :=
        hblock _ (Nat.le_add_right _ _) (Nat.add_le_add_left hr _)
      _ = s.getV r := read_storedReg hs hrange hr

/-! ### The index register (R190 to R192) -/

/-- R190: an immediate address keeps its value at the width of I. -/
theorem indexImm_eq_ofNat (nnn : Addr12) : indexImm nnn = BitVec.ofNat 16 nnn.toNat :=
  (BitVec.ofNat_toNat Config.iWidth nnn).symm

/-- R191: the sum of I and a byte is the sum of their values, cut to the width of I. -/
theorem add_setWidth_eq_ofNat (i : Config.IReg) (b : Byte) :
    i + b.setWidth Config.iWidth = BitVec.ofNat 16 (i.toNat + b.toNat) := by
  apply BitVec.eq_of_toNat_eq
  simp

/-- Settles O29: I alone is written, with a value that both sides read alike. -/
theorem indexLoadAndAdd : Obligations.IndexLoadAndAdd := by
  intro s x nnn hpc
  rw [← indexImm_eq_ofNat, ← add_setWidth_eq_ofNat]
  exact ⟨exec_plusTwo rfl hpc, exec_plusTwo rfl hpc⟩

/-- R192: the glyph of a byte that is a digit. -/
theorem glyphAddress_setWidth {b : Byte} (h : b.toNat ≤ 0xF) (stride : Nat) :
    glyphAddress stride (b.setWidth 4) = BitVec.ofNat 16 (Config.fontBase + stride * b.toNat) := by
  rw [glyphAddress, BitVec.toNat_setWidth, Nat.mod_eq_of_lt (Nat.lt_succ_of_le h)]

/-- Settles O30: the digit check passes or raises its fault. -/
theorem glyphAddressOfDigit : Obligations.GlyphAddressOfDigit := by
  intro s x
  refine ⟨fun hdigit hpc => ?digit, fun habove => ?above⟩
  case digit =>
    rw [← glyphAddress_setWidth hdigit]
    exact exec_plusTwo (congrArg (commit _ s) (withDigit_of_le hdigit _ s _)) hpc
  case above =>
    rw [exec, execLdF, withDigit, hexDigit_eq_none habove, commit_raised, takeFault_eq_next]

end Sys2Proof.Proofs
end

section
/-! PROOF. The display instructions (43_display.md R210 to R213): what one draw of a sprite does to the buffer and to
VF, and what a second draw of it does. -/

namespace Sys2Proof.Proofs
open Sys2Proof.Machine Sys2Proof.Spec

/-! ### The pixels of a sprite (R211, R212) -/

/-- The pixels that DRW at `s` toggles, in the order in which it draws them. -/
def toggledPixels (s : State) (x y : RegIdx) (n : Nat) : List (Fin Config.dispW × Fin Config.dispH) :=
  spritePixels ((s.getV x).toNat % Config.dispW) ((s.getV y).toNat % Config.dispH) 0 (s.mem.readBytes s.indexNat n)

/-- The list that the model draws holds the pixels that the rule names. -/
theorem mem_toggledPixels (s : State) (x y : RegIdx) (n : Nat) (px : Fin Config.dispW) (py : Fin Config.dispH) :
    (px, py) ∈ toggledPixels s x y n ↔ InSprite s x y n px py := by
  rw [toggledPixels, mem_spritePixels, Memory.readBytes_length, InSprite]
  constructor
  · rintro ⟨r, hr, j, hj, hbit, hp⟩
    obtain ⟨rfl, rfl⟩ := Prod.mk.inj hp
    rw [Memory.readBytes_getD _ _ _ _ hr] at hbit
    exact ⟨r, hr, j, hj, hbit, rfl, by rw [Nat.zero_add]; rfl⟩
  · rintro ⟨r, hr, j, hj, hbit, hpx, hpy⟩
    refine ⟨r, hr, j, hj, ?_, Prod.ext (Fin.ext hpx) (Fin.ext ?_)⟩
    · rwa [Memory.readBytes_getD _ _ _ _ hr]
    · rw [Nat.zero_add]
      exact hpy

theorem toggledPixels_nodup (s : State) (x y : RegIdx) {n : Nat} (hn : n ≤ 32) : (toggledPixels s x y n).Nodup :=
  spritePixels_nodup _ _ _ _ (by rwa [Memory.readBytes_length])

/-- A sprite is fixed by its bytes, its coordinates and its place in memory. -/
theorem inSprite_congr {s u : State} {x y : RegIdx} {n : Nat} (hindex : u.index = s.index) (hx : u.getV x = s.getV x)
    (hy : u.getV y = s.getV y) (hbytes : ∀ r < n, u.mem.read (s.indexNat + r) = s.mem.read (s.indexNat + r))
    (px : Fin Config.dispW) (py : Fin Config.dispH) : InSprite u x y n px py ↔ InSprite s x y n px py := by
  have hsame : u.indexNat = s.indexNat := congrArg BitVec.toNat hindex
  rw [InSprite, InSprite, hsame, hx, hy]
  refine exists_congr fun r => and_congr_right fun hr => ?_
  rw [hbytes r hr]

/-- A byte that is not 0 has a 1 bit, counted from the left. -/
theorem byte_ne_zero_iff (b : Byte) : b ≠ 0 ↔ ∃ j < 8, b.getLsbD (7 - j) = true := by
  constructor
  · intro hb
    by_contra hnone
    refine hb (BitVec.eq_of_getLsbD_eq fun i hi => ?_)
    have hbit : ¬b.getLsbD (7 - (7 - i)) = true := fun h => hnone ⟨7 - i, by omega, h⟩
    rw [Nat.sub_sub_self (Nat.le_of_lt_succ hi), Bool.not_eq_true] at hbit
    exact hbit.trans BitVec.getLsbD_zero.symm
  · rintro ⟨j, -, hbit⟩ rfl
    exact absurd hbit (by simp)

/-- A sprite has a pixel exactly when one of its bytes is not 0. -/
theorem exists_inSprite_iff (s : State) (x y : RegIdx) (n : Nat) :
    (∃ px py, InSprite s x y n px py) ↔ ∃ r < n, s.mem.read (s.indexNat + r) ≠ 0 := by
  constructor
  · rintro ⟨px, py, r, hr, j, hj, hbit, -⟩
    exact ⟨r, hr, (byte_ne_zero_iff _).2 ⟨j, hj, hbit⟩⟩
  · rintro ⟨r, hr, hb⟩
    obtain ⟨j, hj, hbit⟩ := (byte_ne_zero_iff _).1 hb
    exact ⟨column _ j, row _ r, r, hr, j, hj, hbit, rfl, rfl⟩

/-! ### One draw (R211, R213) -/

/-- DRW at `s` finds a pixel of its sprite set (R213). -/
def Collides (s : State) (x y : RegIdx) (n : Nat) : Prop :=
  ∃ px py, InSprite s x y n px py ∧ s.disp.pixel px py = true

section
variable {s : State} {x y : RegIdx} {n : Nat} {px : Fin Config.dispW} {py : Fin Config.dispH}

theorem pixel_drawSprite_of_inSprite (hn : n ≤ 32) (h : InSprite s x y n px py) :
    (s.drawSprite x y n).disp.pixel px py = !s.disp.pixel px py :=
  pixel_drawPixels_of_mem s.disp false _ (toggledPixels_nodup s x y hn) px py ((mem_toggledPixels s x y n px py).2 h)

theorem pixel_drawSprite_of_not_inSprite (h : ¬InSprite s x y n px py) :
    (s.drawSprite x y n).disp.pixel px py = s.disp.pixel px py :=
  pixel_drawPixels_of_not_mem s.disp false _ px py (mt (mem_toggledPixels s x y n px py).1 h)

theorem collision_toggledPixels (hn : n ≤ 32) :
    (drawPixels s.disp false (toggledPixels s x y n)).2 = true ↔ Collides s x y n := by
  rw [collision_drawPixels _ _ _ (toggledPixels_nodup s x y hn), Collides]
  simp only [Bool.false_eq_true, false_or, Prod.exists, mem_toggledPixels]

theorem getV_drawSprite (s : State) (x y : RegIdx) (n : Nat) (r : RegIdx) :
    (s.drawSprite x y n).getV r = if r = regF then (s.drawSprite x y n).getV regF else s.getV r := by
  split
  next hr => rw [hr]
  next hr => exact getV_drawSprite_other s x y r n hr

theorem getV_regF_drawSprite (hn : n ≤ 32) [Decidable (Collides s x y n)] :
    (s.drawSprite x y n).getV regF = if Collides s x y n then 1 else 0 := by
  have hflag : (s.drawSprite x y n).getV regF = flagByte (drawPixels s.disp false (toggledPixels s x y n)).2 :=
    getV_setV_same _ _ _
  rw [hflag, flagByte]
  exact if_congr (collision_toggledPixels hn) rfl rfl

theorem getV_regF_drawSprite_eq_one_iff (hn : n ≤ 32) :
    (s.drawSprite x y n).getV regF = 1 ↔ Collides s x y n := by
  classical
  rw [getV_regF_drawSprite hn]
  by_cases h : Collides s x y n <;> simp [h]

end

/-- A sprite has fewer rows than the display. -/
theorem rows_le_dispH (n : BitVec 4) : n.toNat ≤ 32 := Nat.le_trans n.isLt.le (by decide)

/-- R211: DRW in range, or of no rows at any `I`, commits its draw. -/
theorem exec_drw_inRange {s : State} {x y : RegIdx} {n : BitVec 4}
    (hrange : n = 0 ∨ s.indexNat + n.toNat ≤ Config.memSize) (hpc : s.pcNat + 2 < Config.memSize) :
    exec (.drw x y n) s = .next (plusTwo s (s.drawSprite x y n.toNat)) := by
  refine exec_plusTwo ?_ hpc
  rw [exec, execDrw, guardRange, rangeFault_eq_none (hrange.imp_left (congrArg BitVec.toNat))]

/-! ### The instructions -/

/-- Settles O39: the blank buffer is committed, and it has no pixel set. -/
theorem clearMakesEveryPixelFalse : Obligations.ClearMakesEveryPixelFalse := by
  intro s hpc
  exact ⟨Display.blank, exec_plusTwo rfl hpc, pixel_blank⟩

/-- Settles O40: the list that the model draws holds the sprite's pixels, none of them twice. -/
theorem drawInvertsTheSpritePixels : Obligations.DrawInvertsTheSpritePixels := by
  intro s x y n hrange hpc
  have hn := rows_le_dispH n
  refine ⟨(s.drawSprite x y n.toNat).disp, (s.drawSprite x y n.toNat).v, (s.drawSprite x y n.toNat).getV regF,
    exec_drw_inRange hrange hpc, fun px py => pixel_drawSprite_of_inSprite hn,
    fun px py => pixel_drawSprite_of_not_inSprite, getV_drawSprite s x y n.toNat,
    (getV_regF_drawSprite_eq_one_iff hn).2, fun hclear => ?_⟩
  classical
  rw [getV_regF_drawSprite hn]
  exact if_neg hclear

/-! ### The same sprite again (R211, R213) -/

/-- The buffer that two draws of one sprite leave: each of its pixels was inverted twice. -/
theorem drawSprite_twice_disp {s u : State} {x y : RegIdx} {n : Nat} (hn : n ≤ 32)
    (hdisp : u.disp = (s.drawSprite x y n).disp)
    (hsprite : ∀ px py, InSprite u x y n px py ↔ InSprite s x y n px py) :
    (u.drawSprite x y n).disp = s.disp := by
  refine display_ext fun px py => ?_
  by_cases h : InSprite s x y n px py
  · rw [pixel_drawSprite_of_inSprite hn ((hsprite px py).2 h), hdisp, pixel_drawSprite_of_inSprite hn h, Bool.not_not]
  · rw [pixel_drawSprite_of_not_inSprite (mt (hsprite px py).1 h), hdisp, pixel_drawSprite_of_not_inSprite h]

/-- The second draw finds a pixel set exactly where the first found it clear. -/
theorem collides_second_iff {s u : State} {x y : RegIdx} {n : Nat} (hn : n ≤ 32)
    (hdisp : u.disp = (s.drawSprite x y n).disp)
    (hsprite : ∀ px py, InSprite u x y n px py ↔ InSprite s x y n px py) :
    Collides u x y n ↔ ∃ px py, InSprite s x y n px py ∧ s.disp.pixel px py = false := by
  refine exists_congr fun px => exists_congr fun py => ?_
  rw [hsprite px py]
  refine and_congr_right fun h => ?_
  rw [hdisp, pixel_drawSprite_of_inSprite hn h, Bool.not_eq_true']

/-- Settles O41: the second draw inverts the pixels of the first, which it finds inverted. -/
theorem drawTwiceRestoresTheDisplay : Obligations.DrawTwiceRestoresTheDisplay := by
  intro s t u x y n hrange hpc hfirst hdisp hindex hx hy hbytes hupc
  have hn := rows_le_dispH n
  have hsame : u.indexNat = s.indexNat := congrArg BitVec.toNat hindex
  have hsprite := inSprite_congr hindex hx hy hbytes
  rw [exec_drw_inRange hrange hpc, Host.Outcome.next.injEq] at hfirst
  have hdrawn : u.disp = (s.drawSprite x y n.toNat).disp := by rw [hdisp, ← hfirst]; rfl
  have hcollision := (getV_regF_drawSprite_eq_one_iff hn).trans (collides_second_iff hn hdrawn hsprite)
  refine ⟨_, exec_drw_inRange (by rwa [hsame]) hupc, drawSprite_twice_disp hn hdrawn hsprite, hcollision,
    fun hclear => hcollision.trans ?_⟩
  rw [← exists_inSprite_iff s x y]
  exact exists_congr fun px => exists_congr fun py => and_iff_left_of_imp (hclear px py)

end Sys2Proof.Proofs
end

section
/-! PROOF. The timer and input instructions and the key-wait check (44_timers_input.md R230 to R236). -/

namespace Sys2Proof.Proofs
open Sys2Proof.Machine Sys2Proof.Spec

/-! ### The key wait (R235, R236) -/

/-- R236: the keys that the model draws from are those that the rule names. -/
theorem mem_qualifyingKeys_iff_qualifies (mode : Config.KeyWaitMode) (s : State) (k : RegIdx) :
    k ∈ qualifyingKeys mode s.keys s.ksnap ↔ Qualifies mode s k := by
  rw [mem_qualifyingKeys]
  cases mode with
  | edge => simp only [keyQualifies, Qualifies, Bool.and_eq_true, Bool.not_eq_true']
  | level => rfl

theorem keyWaitCheck_of_none_qualifies {mode : Config.KeyWaitMode} {s : State} (h : ∀ k, ¬Qualifies mode s k)
    (x : RegIdx) : keyWaitCheck mode x s = .next { s with ksnap := s.keys, result := .continued } := by
  rcases keyWaitCheck_cases mode x s with ⟨-, hwaits⟩ | ⟨k, hk, -⟩
  · exact hwaits
  · exact absurd ((mem_qualifyingKeys_iff_qualifies mode s k).1 hk) (h k)

/-- R12, R236: which of the qualifying keys is taken is the environment's draw. -/
theorem keyWaitCheck_of_some_qualifies {mode : Config.KeyWaitMode} {s : State} (h : ∃ k, Qualifies mode s k)
    (x : RegIdx) : ∃ k, Qualifies mode s k ∧ keyWaitCheck mode x s = completeWait x k s := by
  rcases keyWaitCheck_cases mode x s with ⟨hempty, -⟩ | ⟨k, hk, htaken⟩
  · obtain ⟨k, hk⟩ := h
    rw [← mem_qualifyingKeys_iff_qualifies, hempty] at hk
    exact absurd hk List.not_mem_nil
  · exact ⟨k, (mem_qualifyingKeys_iff_qualifies mode s k).1 hk, htaken⟩

/-- R236: the key's number, in the width of a register, is written to `Vx`. -/
theorem completeWait_plusTwo {s : State} (x k : RegIdx) (hpc : s.pcNat + 2 < Config.memSize) :
    completeWait x k s = .next (plusTwo s { s with
      v := (s.setV x (BitVec.ofNat 8 k.toNat)).v, ksnap := s.keys, status := .running, draws := s.draws + 1 }) := by
  rw [BitVec.ofNat_toNat]
  exact commit_done hpc

/-- R97, R236: a completion at the end of memory faults with the word of the waiting `Fx0A`. -/
theorem completeWait_past {s : State} (x k : RegIdx) (hpc : Config.memSize ≤ s.pcNat + 2) :
    completeWait x k s = .next (faultedWith (outOfBounds (.ldVxK x) s (s.pcNat + 2)) s) :=
  commit_past hpc

theorem encode_ldVxK (x : RegIdx) : encode (.ldVxK x) = BitVec.ofNat 16 (0xF00A + x.toNat * 0x100) := by
  have hword : word 0xF x.toNat 0 0x0A = encode (.ldVxK x) := word_eq_encodeXNN 0xF#4 x 0x0A#8
  rw [← hword, word]
  congr 1
  omega

/-- Settles O45: no key qualifies, or the drawn one completes the wait, with the next pc in memory or past its end. -/
theorem keyWaitCheckTakesAQualifyingKey : Obligations.KeyWaitCheckTakesAQualifyingKey := by
  intro mode s x
  refine ⟨fun hnone => keyWaitCheck_of_none_qualifies hnone x, fun hsome hpc => ?taken, fun hsome hpc => ?past⟩
  case taken =>
    obtain ⟨k, hk, hcheck⟩ := keyWaitCheck_of_some_qualifies hsome x
    exact ⟨k, _, hk, fun r => getV_setV s x r _, hcheck.trans (completeWait_plusTwo x k hpc)⟩
  case past =>
    obtain ⟨k, -, hcheck⟩ := keyWaitCheck_of_some_qualifies hsome x
    rw [← encode_ldVxK]
    exact hcheck.trans (completeWait_past x k hpc)

/-- Settles O44: a transfer to the pc itself, which is in memory. -/
theorem keyWaitStarts : Obligations.KeyWaitStarts := by
  intro s x hpc
  have hsame : BitVec.ofNat 16 s.pcNat = s.pc := by
    rw [State.pcNat, BitVec.ofNat_toNat, BitVec.setWidth_eq]
  rw [exec_goTo (i := .ldVxK x) rfl hpc, goTo, hsame]

/-! ### The timers (R230 to R232) -/

/-- R29: the sound output follows ST. -/
theorem soundActive_iff (s : State) : soundActive s = true ↔ s.st.toNat ≠ 0 :=
  bne_iff_ne.trans (not_congr BitVec.toNat_inj.symm)

/-- Settles O42: one register or timer write each; the sound output is that of the timer written. -/
theorem timerTransfers : Obligations.TimerTransfers := by
  intro s x hpc
  exact ⟨completesWithRegs_of_setV rfl hpc, exec_plusTwo rfl hpc, exec_plusTwo rfl hpc, soundActive_iff _⟩

/-! ### The key skips (R233, R234) -/

/-- D7, D16: a digit check that fails takes its fault. -/
theorem exec_withDigit_above {i : Instr} {s : State} {b : Byte} {k : RegIdx → Effect}
    (h : exec i s = commit i s (withDigit i s b k)) (hb : 0xF < b.toNat) :
    exec i s = .next (faultedWith (.operandOutOfRange s.pc (encode i) b) s) := by
  rw [h, withDigit, hexDigit_eq_none hb, commit_raised, takeFault_eq_next]

/-- Settles O43: `Vx` names a key, and each instruction is a skip on it, or the digit check faults. -/
theorem keySkipsReadTheLatch : Obligations.KeySkipsReadTheLatch := by
  intro s x
  refine ⟨fun k hk => ?key, fun habove => ⟨exec_withDigit_above rfl habove, exec_withDigit_above rfl habove⟩⟩
  case key =>
    have hdigit : (s.getV x).toNat ≤ 0xF := hk ▸ Nat.le_of_lt_succ k.isLt
    obtain rfl : (s.getV x).setWidth 4 = k := by
      rw [← BitVec.ofNat_toNat, hk, BitVec.ofNat_toNat, BitVec.setWidth_eq]
    exact ⟨skipsWhen_of_isSkip (isSkip_skp hdigit) Iff.rfl,
      skipsWhen_of_isSkip (isSkip_sknp hdigit) (iff_of_eq (Bool.not_eq_true' _))⟩

end Sys2Proof.Proofs
end

section
/-! PROOF. Faults and the host (60_exceptions.md): what the engine's step leaves, the precise fault (R251), the sticky fault
and the gate (R252, R253), the tick and the key write (R270, R276), the run to halt (R279, R280). -/

namespace Sys2Proof.Proofs
open Sys2Proof.Machine Sys2Proof.Spec

/-! ### What the engine's step leaves (R95, R251, R276) -/

/-- `t` is what a step that ran may leave of `s`: a raised fault, which leaves `s` but for its record, or a completion,
which returns no fault and leaves the latch. -/
def RaisesOrCompletes (s t : State) : Prop :=
  (∃ e, (Status.faulted e).legal = true ∧ t = faultedWith e s) ∨ (NoFault t ∧ t.keys = s.keys)

theorem takeFault_raisesOrCompletes {s t : State} {e : Fault} (he : (Status.faulted e).legal = true)
    (h : takeFault e s = .next t) : RaisesOrCompletes s t := by
  cases h
  exact .inl ⟨e, he, rfl⟩

/-- R94: `Continue` and `Halt` are no faults. -/
theorem returned_ne_faulted (i : Instr) (e : Fault) : returned i ≠ .faulted e := by
  rcases returned_cases i with h | ⟨nnn, -, h⟩
  · rw [h]
    exact nofun
  · rw [h]
    exact nofun

theorem exec_raisesOrCompletes {i : Instr} {s t : State} (h : exec i s = .next t) : RaisesOrCompletes s t := by
  rcases exec_next_cases h with hraised | ⟨-, npc, -, rfl⟩
  · exact .inl hraised
  · exact .inr ⟨returned_ne_faulted i, workingCopy_keys i s⟩

theorem runInstruction_raisesOrCompletes {s t : State} (h : runInstruction s = .next t) : RaisesOrCompletes s t := by
  rcases runInstruction_cases s with ⟨w, i, -, -, hr⟩ | ⟨w, -, -, hr⟩ | ⟨a, -, hr⟩
  · exact exec_raisesOrCompletes (hr ▸ h)
  · exact takeFault_raisesOrCompletes rfl (hr ▸ h)
  · exact takeFault_raisesOrCompletes rfl (hr ▸ h)

/-- R236: the completion's own `pc + 2` is under the check of R97. -/
theorem completeWait_raisesOrCompletes {x k : RegIdx} {s t : State} (h : completeWait x k s = .next t) :
    RaisesOrCompletes s t := by
  rcases commit_done_next h with rfl | ⟨-, rfl⟩
  · exact .inl ⟨_, rfl, rfl⟩
  · exact .inr ⟨fun _ => nofun, rfl⟩

theorem keyWaitCheck_raisesOrCompletes {mode : Config.KeyWaitMode} {x : RegIdx} {s t : State}
    (h : keyWaitCheck mode x s = .next t) : RaisesOrCompletes s t := by
  rcases keyWaitCheck_cases mode x s with ⟨-, hc⟩ | ⟨k, -, hc⟩
  · rw [hc] at h
    cases h
    exact .inr ⟨fun _ => nofun, rfl⟩
  · exact completeWait_raisesOrCompletes (hc ▸ h)

theorem returnFault_next {s t : State} {e : Fault} (h : returnFault e s = .next t) :
    t = { s with result := .faulted e } :=
  (Host.Outcome.next.inj h).symm

/-- Everything the engine's step can leave (R251 to R253): `s` itself but for the returned fault, the recorded one or the
gate's, or what a step that ran leaves. -/
theorem engineStep_next_cases {s t : State} (h : engineStep s = .next t) :
    (∃ e, (s.status = .faulted e ∨ e = .noProgramLoaded) ∧ t = { s with result := .faulted e }) ∨
      RaisesOrCompletes s t := by
  rcases engineStep_cases s with ⟨e, hs, hc⟩ | ⟨-, -, hc⟩ | ⟨x, -, -, hc⟩ | ⟨-, -, hc⟩
  · exact .inl ⟨e, .inl hs, returnFault_next (hc ▸ h)⟩
  · exact .inl ⟨_, .inr rfl, returnFault_next (hc ▸ h)⟩
  · exact .inr (keyWaitCheck_raisesOrCompletes (hc ▸ h))
  · exact .inr (runInstruction_raisesOrCompletes (hc ▸ h))

/-- R251: the fault that a step which ran returns is the one it raised, never the gate's. -/
theorem RaisesOrCompletes.precise {s t : State} {e : Fault} (h : RaisesOrCompletes s t) (ht : t.result = .faulted e) :
    t = faultedWith e s ∧ e ≠ .noProgramLoaded := by
  rcases h with ⟨e', he', rfl⟩ | ⟨hno, -⟩
  · obtain rfl : e' = e := Result.faulted.inj ht
    refine ⟨rfl, ?_⟩
    rintro rfl
    cases he'
  · exact absurd ht (hno e)

theorem RaisesOrCompletes.keys_eq {s t : State} (h : RaisesOrCompletes s t) : t.keys = s.keys := by
  rcases h with ⟨e, -, rfl⟩ | ⟨-, hkeys⟩
  · rfl
  · exact hkeys

/-- R252: in an engine that has recorded `e` already, returning `e` leaves what raising it would. -/
theorem faultedWith_of_status {s : State} {e : Fault} (hs : s.status = .faulted e) :
    faultedWith e s = { s with result := .faulted e } := by
  rw [faultedWith, ← hs]

/-- Settles O11: by what the engine's step can leave; an engine that is faulted already has the status it would take. -/
theorem raisedFaultIsPrecise : Obligations.RaisedFaultIsPrecise := by
  intro s t e ht
  refine ⟨fun h hgate => ?engine, fun i h => (exec_raisesOrCompletes h).precise ht⟩
  case engine =>
    rcases engineStep_next_cases h with ⟨e', hs, rfl⟩ | hran
    · obtain rfl : e' = e := Result.faulted.inj ht
      exact (faultedWith_of_status (hs.resolve_right hgate)).symm
    · exact (hran.precise ht).1

/-- Settles O48: the head of the schedule replaces the latch; nothing that the engine's step can leave differs in it. -/
theorem keyWriteReplacesTheLatch : Obligations.KeyWriteReplacesTheLatch := by
  constructor
  · intro s ks rest hsched
    exact step_of_call hsched
  · intro s t h
    rcases engineStep_next_cases h with ⟨e, -, rfl⟩ | hran
    · rfl
    · exact hran.keys_eq

/-! ### The sticky fault and the gate (R252, R253) -/

/-- Log 3: a written-down `step` is the engine's step, with the call taken off the schedule. -/
theorem step_of_step_call {s : State} {rest : List HostCall} (h : s.schedule = .step :: rest) :
    step s = engineStep { s with schedule := rest } :=
  step_of_call h

/-- R290, R291. -/
theorem hostCall_running_of_reset {c : HostCall} (hc : c = .reset ∨ c = .construct) (s : State) :
    ∃ t, hostCall c s = .next t ∧ t.status = .running := by
  rcases hc with rfl | rfl
  · exact ⟨_, rfl, rfl⟩
  · exact ⟨_, rfl, rfl⟩

theorem hostLoad_status (offset : Nat) (bytes : List Byte) (s : State) :
    (hostLoad offset bytes s).status = s.status := by
  rw [hostLoad_eq]

theorem hostLoadProgram_status (bytes : List Byte) (s : State) : (hostLoadProgram bytes s).status = s.status := by
  unfold hostLoadProgram
  split
  · rfl
  · exact hostLoad_status _ bytes s

/-- R71, R270, R276: the host's calls but `step`, reset and construction leave the status. -/
theorem hostCall_keeps_status {c : HostCall} (hstep : c ≠ .step) (hc : ¬(c = .reset ∨ c = .construct)) (s : State) :
    ∃ t, hostCall c s = .next t ∧ t.status = s.status := by
  cases c with
  | step => exact absurd rfl hstep
  | reset => exact absurd (.inl rfl) hc
  | construct => exact absurd (.inr rfl) hc
  | loadFont bytes => exact ⟨_, rfl, hostLoad_status _ bytes s⟩
  | loadProgram bytes => exact ⟨_, rfl, hostLoadProgram_status bytes s⟩
  | load offset bytes => exact ⟨_, rfl, hostLoad_status offset bytes s⟩
  | writeKeys keys | tick => exact ⟨_, rfl, rfl⟩

/-- Settles O8: a step of a faulted engine returns its fault; of the other calls, reset and construction alone write the
status. -/
theorem faultIsStickyUntilReset : Obligations.FaultIsStickyUntilReset := by
  intro s e hs
  refine ⟨fun hsched => ?empty, fun rest hsched => ?written, fun c hstep => ?call⟩
  case empty => exact (step_of_empty hsched).trans (engineStep_faulted hs)
  case written => exact (step_of_step_call hsched).trans (engineStep_faulted hs)
  case call =>
    by_cases hc : c = .reset ∨ c = .construct
    · obtain ⟨t, ht, hrun⟩ := hostCall_running_of_reset hc s
      exact ⟨t, ht, fun _ => hrun, fun hreset hconstruct => absurd hc (not_or.2 ⟨hreset, hconstruct⟩)⟩
    · obtain ⟨t, ht, hstatus⟩ := hostCall_keeps_status hstep hc s
      exact ⟨t, ht, fun h => absurd h hc, fun _ _ => hstatus.trans hs⟩

/-- R253, R254: the gate comes after the sticky fault and before the key-wait check and the fetch. -/
theorem engineStep_gated {s : State} (hs : ∀ e, s.status ≠ .faulted e)
    (hload : s.mem.fontLoaded = false ∨ s.mem.programLoaded = false) :
    engineStep s = returnFault .noProgramLoaded s := by
  have hgate : s.runnable = false := runnable_eq_false.2 hload
  rcases engineStep_cases s with ⟨e, he, -⟩ | ⟨-, -, hc⟩ | ⟨x, -, hr, -⟩ | ⟨-, hr, -⟩
  · exact absurd he (hs e)
  · exact hc
  · exact absurd hr (Bool.eq_false_iff.1 hgate)
  · exact absurd hr (Bool.eq_false_iff.1 hgate)

/-- Settles O9: the engine's step meets the gate, of an empty schedule or of a written-down call. -/
theorem gateRefusesUntilBothImagesLoaded : Obligations.GateRefusesUntilBothImagesLoaded := by
  intro s hs hload
  constructor
  · intro hsched
    exact (step_of_empty hsched).trans (engineStep_gated hs hload)
  · intro rest hsched
    exact (step_of_step_call hsched).trans (engineStep_gated hs hload)

/-! ### The tick (R28, R270) -/

/-- D21: the subtraction of naturals stops at 0, as the timer does. -/
theorem toNat_countDown (b : Byte) : (countDown b).toNat = b.toNat - 1 := by
  unfold countDown
  split
  case isTrue h => rw [h]; rfl
  case isFalse h => bv_omega

/-- Settles O47: the head of the schedule counts both timers down. -/
theorem tickCountsTimersDown : Obligations.TickCountsTimersDown := by
  intro s rest hsched
  exact ⟨_, step_of_call hsched, toNat_countDown s.dt, toNat_countDown s.st, rfl⟩

/-! ### The run to halt (R279, R280) -/

theorem runToHalt_of_halted {s t : State} {v : Addr12} (hstep : step s = .next t) (ht : t.result = .halted v)
    (fuel : Nat) : runToHalt (fuel + 1) s = .halted v t := by
  simp only [runToHalt, hstep, ht]

theorem runToHalt_of_faulted {s t : State} {e : Fault} (hstep : step s = .next t) (ht : t.result = .faulted e)
    (fuel : Nat) : runToHalt (fuel + 1) s = .faulted e t := by
  simp only [runToHalt, hstep, ht]

theorem runToHalt_of_continued {s t : State} (hstep : step s = .next t) (ht : t.result = .continued) (fuel : Nat) :
    runToHalt (fuel + 1) s = runToHalt fuel t := by
  simp only [runToHalt, hstep, ht]

/-- Settles O52: by the result of the step; the sticky fault and the gate are steps that return a fault. -/
theorem runEndsAtHaltOrFault : Obligations.RunEndsAtHaltOrFault := by
  intro s fuel
  refine ⟨fun t hstep => ⟨fun v ht => runToHalt_of_halted hstep ht fuel, fun e ht => runToHalt_of_faulted hstep ht fuel,
    fun ht => runToHalt_of_continued hstep ht fuel⟩, fun e hs hsched => ?sticky, fun hs hload hsched => ?gate⟩
  case sticky =>
    exact runToHalt_of_faulted ((step_of_empty hsched).trans (engineStep_faulted hs)) rfl fuel
  case gate =>
    exact runToHalt_of_faulted ((step_of_empty hsched).trans (engineStep_gated hs hload)) rfl fuel

end Sys2Proof.Proofs
end

section
/-! PROOF. Reset and the loads of the two images (70_reset_and_hazards.md): the reset values (R290, R291), the invariant
after reset, the loads at their base (R292). -/

namespace Sys2Proof.Proofs
open Sys2Proof.Machine Sys2Proof.Spec

/-! ### The reset values (R36) -/

@[simp] theorem pressed_none (k : RegIdx) : KeySet.none.pressed k = false := by
  simp [KeySet.none, KeySet.pressed]

@[simp] theorem getV_reset (r : RegIdx) : State.reset.getV r = 0 := by
  simp [State.reset, State.getV]

@[simp] theorem stack_reset_get (k : Fin Config.stackDepth) : State.reset.stack.get k = 0 := by
  simp [State.reset, Vector.get]

/-- The values that R36 gives to every part of the state but the input latch. -/
def HasResetValues (w : State) : Prop :=
  (∀ a, w.mem.read a = 0) ∧ (∀ r, w.getV r = 0) ∧ w.index = 0 ∧ w.pc = 0x200#16 ∧ w.sp.val = 0 ∧
    (∀ k, w.stack.get k = 0) ∧ w.dt = 0 ∧ w.st = 0 ∧ (∀ px py, w.disp.pixel px py = false) ∧
    (∀ k, w.ksnap.pressed k = false) ∧ w.status = .running

theorem hasResetValues_reset : HasResetValues State.reset :=
  ⟨Memory.read_nil, getV_reset, rfl, rfl, rfl, stack_reset_get, rfl, rfl, pixel_blank, pressed_none, rfl⟩

/-- D18 leaves the latch apart; the draws and the schedule are the model's own (log 3, log 4). -/
theorem hasResetValues_congr {w w' : State} (hw : HasResetValues w)
    (h : w' = { w with keys := w'.keys, draws := w'.draws, schedule := w'.schedule }) : HasResetValues w' :=
  h ▸ hw

theorem hasResetValues_hostReset (s : State) : HasResetValues (hostReset s) :=
  hasResetValues_congr hasResetValues_reset rfl

theorem hasResetValues_hostConstruct (s : State) : HasResetValues (hostConstruct s) :=
  hasResetValues_congr hasResetValues_reset rfl

/-- Settles O51: reset and construction give the reset state, but for the latch, which construction clears, and the
model's own fields. -/
theorem resetLeavesTheResetValues : Obligations.ResetLeavesTheResetValues := by
  intro s
  refine ⟨hostReset s, hostConstruct s, rfl, rfl, rfl, pressed_none, ?values⟩
  case values =>
    have hall : ∀ w ∈ [hostReset s, hostConstruct s, State.reset], HasResetValues w :=
      List.forall_mem_cons.2 ⟨hasResetValues_hostReset s,
        List.forall_mem_cons.2 ⟨hasResetValues_hostConstruct s, List.forall_mem_singleton.2 hasResetValues_reset⟩⟩
    exact hall

/-- Settles O59: the empty memory is canonical, 0x200 is in memory, and `Running` is a legal status. -/
theorem resetMeetsTheInvariant : Obligations.ResetMeetsTheInvariant := inv_reset

/-! ### The loads of the two images (R71, R292) -/

theorem hostLoadProgram_inRange {bytes : List Byte} (h : Config.programBase + bytes.length ≤ Config.memSize)
    (s : State) : hostLoadProgram bytes s = { hostLoad Config.programBase bytes s with pc := 0x200#16 } :=
  if_neg (Nat.not_lt.2 h)

/-- Log 13: a refused load leaves the pc. -/
theorem hostLoadProgram_past {bytes : List Byte} (h : Config.memSize < Config.programBase + bytes.length) (s : State) :
    hostLoadProgram bytes s = { s with result := .loadOutOfBounds } :=
  if_pos h

/-- Settles O50: the program load in range is the load with the pc set, past the end it is refused whole; the font load
is the load at its base. -/
theorem imageLoadsAreLoadsAtTheirBase : Obligations.ImageLoadsAreLoadsAtTheirBase := by
  intro s bytes
  refine ⟨fun t hr ht => ?program, fun hpast => ?refused, rfl⟩
  case program =>
    obtain rfl : hostLoad 0x200 bytes s = t := Host.Outcome.next.inj ht
    exact congrArg Host.Outcome.next (hostLoadProgram_inRange hr s)
  case refused => exact congrArg Host.Outcome.next (hostLoadProgram_past hpast s)

end Sys2Proof.Proofs
end
